-- ==== Sys2Proof/Word.lean ====
section
/-! DEFINITION. The machine's words: bytes, 16-bit words, register numbers and the two other immediate widths.
All values are unsigned and bit 0 is the least significant bit (`00_scope.md` rule R8). -/

namespace Sys2Proof

/-- An 8-bit value: a general register, a memory byte, a timer, the immediate `kk` (rules R20, R28, R83). -/
abbrev Byte := BitVec 8

/-- A 16-bit value: `pc`, `I`, a stack entry, an instruction word (rules R22, R23, R26, R80). -/
abbrev Word := BitVec 16

/-- A register number, the 4-bit fields `x` and `y` (rules R20, R82). -/
abbrev Reg := BitVec 4

/-- The 4-bit row count `n` (rule R83) and any other nibble of an instruction word (rule R80). -/
abbrev Nibble := BitVec 4

/-- The 12-bit address field `nnn` (rule R83). -/
abbrev Addr12 := BitVec 12

/-- `VF`, the register the flag-writing instructions overwrite (rule R21). -/
abbrev VF : Reg := 0xF#4

end Sys2Proof
end

