-- ==== Sys2Proof/Syntax.lean ====
section
/-! DEFINITION. The abstract syntax: one constructor per row of `spec/opcode_table.json` (`30_encoding.md` rule R85),
the catch-all row `UNDEF` (rule R86) among them. An operand field the instruction ignores (`nnn` of `0nnn`, `y` of
`8xy6` and `8xyE`, rule R90) is kept, so that no bit of an encoding is lost. -/

namespace Sys2Proof

/-- One instruction of the bite instruction set, its operands already extracted (rules R85, R86, R94). -/
inductive Instr where
  /-- `00E0` CLS (rule R170). -/
  | cls
  /-- `00EE` RET (rule R102). -/
  | ret
  /-- `0nnn` SYS nnn, `nnn` ignored (rule R101). -/
  | sys (nnn : Addr12)
  /-- `1nnn` JP nnn (rule R103). -/
  | jp (nnn : Addr12)
  /-- `2nnn` CALL nnn (rule R108). -/
  | call (nnn : Addr12)
  /-- `3xkk` SE Vx, kk (rule R104). -/
  | seImm (x : Reg) (kk : Byte)
  /-- `4xkk` SNE Vx, kk (rule R105). -/
  | sneImm (x : Reg) (kk : Byte)
  /-- `5xy0` SE Vx, Vy (rule R106). -/
  | seReg (x y : Reg)
  /-- `6xkk` LD Vx, kk (rule R121). -/
  | ldImm (x : Reg) (kk : Byte)
  /-- `7xkk` ADD Vx, kk (rule R122). -/
  | addImm (x : Reg) (kk : Byte)
  /-- `8xy0` LD Vx, Vy (rule R123). -/
  | ldReg (x y : Reg)
  /-- `8xy1` OR Vx, Vy (rule R124). -/
  | orReg (x y : Reg)
  /-- `8xy2` AND Vx, Vy (rule R125). -/
  | andReg (x y : Reg)
  /-- `8xy3` XOR Vx, Vy (rule R126). -/
  | xorReg (x y : Reg)
  /-- `8xy4` ADD Vx, Vy (rule R127). -/
  | addReg (x y : Reg)
  /-- `8xy5` SUB Vx, Vy (rule R128). -/
  | subReg (x y : Reg)
  /-- `8xy6` SHR Vx, `y` ignored (rule R129). -/
  | shr (x y : Reg)
  /-- `8xy7` SUBN Vx, Vy (rule R130). -/
  | subnReg (x y : Reg)
  /-- `8xyE` SHL Vx, `y` ignored (rule R131). -/
  | shl (x y : Reg)
  /-- `9xy0` SNE Vx, Vy (rule R107). -/
  | sneReg (x y : Reg)
  /-- `Annn` LD I, nnn (rule R151). -/
  | ldI (nnn : Addr12)
  /-- `Bnnn` JP V0, nnn (rule R109). -/
  | jpV0 (nnn : Addr12)
  /-- `Cxkk` RND Vx, kk (rule R132). -/
  | rnd (x : Reg) (kk : Byte)
  /-- `Dxyn` DRW Vx, Vy, n (rule R171). -/
  | drw (x y : Reg) (n : Nibble)
  /-- `Ex9E` SKP Vx (rule R190). -/
  | skp (x : Reg)
  /-- `ExA1` SKNP Vx (rule R191). -/
  | sknp (x : Reg)
  /-- `Fx07` LD Vx, DT (rule R193). -/
  | ldVxDt (x : Reg)
  /-- `Fx0A` LD Vx, K (rule R192). -/
  | ldVxK (x : Reg)
  /-- `Fx15` LD DT, Vx (rule R194). -/
  | ldDtVx (x : Reg)
  /-- `Fx18` LD ST, Vx (rule R195). -/
  | ldStVx (x : Reg)
  /-- `Fx1E` ADD I, Vx (rule R152). -/
  | addI (x : Reg)
  /-- `Fx29` LD F, Vx (rule R153). -/
  | ldFont (x : Reg)
  /-- `Fx33` LD B, Vx (rule R154). -/
  | storeBcd (x : Reg)
  /-- `Fx55` LD [I], Vx (rule R156). -/
  | storeRegs (x : Reg)
  /-- `Fx65` LD Vx, [I] (rule R157). -/
  | loadRegs (x : Reg)
  /-- A word that matches no row of rule R85: the silent no-op of rule R86. -/
  | undef (w : Word)
  deriving DecidableEq, Repr

end Sys2Proof
end

