-- ==== Sys2Proof/Decode.lean ====
section
/-! DEFINITION. Decoding and encoding (`30_encoding.md` rules R80 to R90): the fields of an instruction word, the
opcode map as a table of masks and matches, the decoder (total on words, and on bytes rejecting a cut-off instruction
by name), and the encoder written from the same formats. -/

namespace Sys2Proof

/-! ### Fields (rules R80, R82) -/

/-- `major = op[15:12]`. -/
def fieldMajor (w : Word) : Nibble := w.extractLsb' 12 4

/-- `x = op[11:8]`. -/
def fieldX (w : Word) : Reg := w.extractLsb' 8 4

/-- `y = op[7:4]`. -/
def fieldY (w : Word) : Reg := w.extractLsb' 4 4

/-- `n = op[3:0]`. -/
def fieldN (w : Word) : Nibble := w.extractLsb' 0 4

/-- `kk = op[7:0]`. -/
def fieldKk (w : Word) : Byte := w.extractLsb' 0 8

/-- `nnn = op[11:0]`. -/
def fieldNnn (w : Word) : Addr12 := w.extractLsb' 0 12

/-! ### Formats (rule R81): the fields put together, most significant first -/

/-- Format NNN: `major`, `nnn`. -/
def formatNnn (major : Nibble) (nnn : Addr12) : Word := major ++ nnn

/-- Formats XKK and X: `major`, `x`, and a low byte that is `kk` or the minor selector. -/
def formatXkk (major : Nibble) (x : Reg) (kk : Byte) : Word := (major ++ x) ++ kk

/-- Formats XY and XYN: `major`, `x`, `y`, and a low nibble that is `n` or the minor selector. -/
def formatXyn (major : Nibble) (x y : Reg) (n : Nibble) : Word := ((major ++ x) ++ y) ++ n

/-! ### The opcode map (rule R85) -/

/-- One row of the opcode map: a word `op` selects the row when `op & mask = value`. -/
structure OpcodeRow where
  mnemonic : String
  mask : Word
  value : Word
  deriving DecidableEq, Repr

/-- The 35 rows of rule R85 in its order (exact words first, rule R84), with the mnemonics of
`spec/opcode_table.json`. -/
def opcodeTable : List OpcodeRow :=
  [ ⟨"CLS", 0xFFFF, 0x00E0⟩, ⟨"RET", 0xFFFF, 0x00EE⟩, ⟨"SYS_nnn", 0xF000, 0x0000⟩,
    ⟨"JP_nnn", 0xF000, 0x1000⟩, ⟨"CALL_nnn", 0xF000, 0x2000⟩, ⟨"SE_Vx__kk", 0xF000, 0x3000⟩,
    ⟨"SNE_Vx__kk", 0xF000, 0x4000⟩, ⟨"SE_Vx__Vy", 0xF00F, 0x5000⟩, ⟨"LD_Vx__kk", 0xF000, 0x6000⟩,
    ⟨"ADD_Vx__kk", 0xF000, 0x7000⟩ ] ++
  [ ⟨"LD_Vx__Vy", 0xF00F, 0x8000⟩, ⟨"OR_Vx__Vy", 0xF00F, 0x8001⟩, ⟨"AND_Vx__Vy", 0xF00F, 0x8002⟩,
    ⟨"XOR_Vx__Vy", 0xF00F, 0x8003⟩, ⟨"ADD_Vx__Vy", 0xF00F, 0x8004⟩, ⟨"SUB_Vx__Vy", 0xF00F, 0x8005⟩,
    ⟨"SHR_Vx", 0xF00F, 0x8006⟩, ⟨"SUBN_Vx__Vy", 0xF00F, 0x8007⟩, ⟨"SHL_Vx", 0xF00F, 0x800E⟩,
    ⟨"SNE_Vx__Vy", 0xF00F, 0x9000⟩, ⟨"LD_I__nnn", 0xF000, 0xA000⟩, ⟨"JP_V0__nnn", 0xF000, 0xB000⟩,
    ⟨"RND_Vx__kk", 0xF000, 0xC000⟩, ⟨"DRW_Vx__Vy__n", 0xF000, 0xD000⟩ ] ++
  [ ⟨"SKP_Vx", 0xF0FF, 0xE09E⟩, ⟨"SKNP_Vx", 0xF0FF, 0xE0A1⟩, ⟨"LD_Vx__DT", 0xF0FF, 0xF007⟩,
    ⟨"LD_Vx__K", 0xF0FF, 0xF00A⟩, ⟨"LD_DT__Vx", 0xF0FF, 0xF015⟩, ⟨"LD_ST__Vx", 0xF0FF, 0xF018⟩,
    ⟨"ADD_I__Vx", 0xF0FF, 0xF01E⟩, ⟨"LD_F__Vx", 0xF0FF, 0xF029⟩, ⟨"LD_B__Vx", 0xF0FF, 0xF033⟩,
    ⟨"LD__I___Vx", 0xF0FF, 0xF055⟩, ⟨"LD_Vx___I", 0xF0FF, 0xF065⟩ ]

/-- The first row of the opcode map that a word selects (rule R84), if any. -/
def rowOf (w : Word) : Option OpcodeRow :=
  opcodeTable.find? fun r => w &&& r.mask == r.value

/-- The row of the opcode map with a mnemonic, if any. -/
def rowNamed (name : String) : Option OpcodeRow := opcodeTable.find? fun r => r.mnemonic == name

/-- A word that matches none of the 35 rows (rule R86). -/
def undefinedWord (w : Word) : Bool := (rowOf w).isNone

/-- The row an instruction belongs to, by the table's own mnemonic. -/
def Instr.mnemonic : Instr → String
  | .cls => "CLS"
  | .ret => "RET"
  | .sys _ => "SYS_nnn"
  | .jp _ => "JP_nnn"
  | .call _ => "CALL_nnn"
  | .seImm _ _ => "SE_Vx__kk"
  | .sneImm _ _ => "SNE_Vx__kk"
  | .seReg _ _ => "SE_Vx__Vy"
  | .ldImm _ _ => "LD_Vx__kk"
  | .addImm _ _ => "ADD_Vx__kk"
  | .ldReg _ _ => "LD_Vx__Vy"
  | .orReg _ _ => "OR_Vx__Vy"
  | .andReg _ _ => "AND_Vx__Vy"
  | .xorReg _ _ => "XOR_Vx__Vy"
  | .addReg _ _ => "ADD_Vx__Vy"
  | .subReg _ _ => "SUB_Vx__Vy"
  | .shr _ _ => "SHR_Vx"
  | .subnReg _ _ => "SUBN_Vx__Vy"
  | .shl _ _ => "SHL_Vx"
  | .sneReg _ _ => "SNE_Vx__Vy"
  | .ldI _ => "LD_I__nnn"
  | .jpV0 _ => "JP_V0__nnn"
  | .rnd _ _ => "RND_Vx__kk"
  | .drw _ _ _ => "DRW_Vx__Vy__n"
  | .skp _ => "SKP_Vx"
  | .sknp _ => "SKNP_Vx"
  | .ldVxDt _ => "LD_Vx__DT"
  | .ldVxK _ => "LD_Vx__K"
  | .ldDtVx _ => "LD_DT__Vx"
  | .ldStVx _ => "LD_ST__Vx"
  | .addI _ => "ADD_I__Vx"
  | .ldFont _ => "LD_F__Vx"
  | .storeBcd _ => "LD_B__Vx"
  | .storeRegs _ => "LD__I___Vx"
  | .loadRegs _ => "LD_Vx___I"
  | .undef _ => "UNDEF"

/-! ### The decoder (rules R84, R86) -/

/-- Major 8, decided by the low nibble (rule R84). -/
def decodeMajor8 (w : Word) : Instr :=
  match (fieldN w).toNat with
  | 0x0 => .ldReg (fieldX w) (fieldY w)
  | 0x1 => .orReg (fieldX w) (fieldY w)
  | 0x2 => .andReg (fieldX w) (fieldY w)
  | 0x3 => .xorReg (fieldX w) (fieldY w)
  | 0x4 => .addReg (fieldX w) (fieldY w)
  | 0x5 => .subReg (fieldX w) (fieldY w)
  | 0x6 => .shr (fieldX w) (fieldY w)
  | 0x7 => .subnReg (fieldX w) (fieldY w)
  | 0xE => .shl (fieldX w) (fieldY w)
  | _ => .undef w

/-- Major E, decided by the low byte (rule R84). -/
def decodeMajorE (w : Word) : Instr :=
  match (fieldKk w).toNat with
  | 0x9E => .skp (fieldX w)
  | 0xA1 => .sknp (fieldX w)
  | _ => .undef w

/-- Major F, decided by the low byte (rule R84). -/
def decodeMajorF (w : Word) : Instr :=
  match (fieldKk w).toNat with
  | 0x07 => .ldVxDt (fieldX w)
  | 0x0A => .ldVxK (fieldX w)
  | 0x15 => .ldDtVx (fieldX w)
  | 0x18 => .ldStVx (fieldX w)
  | 0x1E => .addI (fieldX w)
  | 0x29 => .ldFont (fieldX w)
  | 0x33 => .storeBcd (fieldX w)
  | 0x55 => .storeRegs (fieldX w)
  | 0x65 => .loadRegs (fieldX w)
  | _ => .undef w

/-- The instruction a word stands for: dispatch on the major nibble first (rule R84), then on the selector that
majors 0, 5, 8, 9, E and F have; a word that matches no row is `undef` (rule R86). -/
def decode (w : Word) : Instr :=
  match (fieldMajor w).toNat with
  | 0x0 => if fieldNnn w = 0x0E0 then .cls else if fieldNnn w = 0x0EE then .ret else .sys (fieldNnn w)
  | 0x1 => .jp (fieldNnn w)
  | 0x2 => .call (fieldNnn w)
  | 0x3 => .seImm (fieldX w) (fieldKk w)
  | 0x4 => .sneImm (fieldX w) (fieldKk w)
  | 0x5 => if fieldN w = 0 then .seReg (fieldX w) (fieldY w) else .undef w
  | 0x6 => .ldImm (fieldX w) (fieldKk w)
  | 0x7 => .addImm (fieldX w) (fieldKk w)
  | 0x8 => decodeMajor8 w
  | 0x9 => if fieldN w = 0 then .sneReg (fieldX w) (fieldY w) else .undef w
  | 0xA => .ldI (fieldNnn w)
  | 0xB => .jpV0 (fieldNnn w)
  | 0xC => .rnd (fieldX w) (fieldKk w)
  | 0xD => .drw (fieldX w) (fieldY w) (fieldN w)
  | 0xE => decodeMajorE w
  | _ => decodeMajorF w

/-- The two bytes of a fetched instruction, big-endian: the byte at the lower address is `op[15:8]` (rule R53). -/
def joinBytes (high low : Byte) : Word := high ++ low

/-- `op[15:8]`, the byte at the instruction's own address (rule R53). -/
def highByte (w : Word) : Byte := w.extractLsb' 8 8

/-- `op[7:0]`, the byte at the next address (rule R53). -/
def lowByte (w : Word) : Byte := w.extractLsb' 0 8

/-- Why a list of bytes holds no instruction. -/
inductive DecodeError where
  /-- Fewer than the two bytes every instruction has (rule R80). -/
  | truncated
  deriving DecidableEq, Repr

/-- The instruction at the head of a list of bytes and the bytes after it; a list with fewer than two bytes is
rejected by name (rule R80). -/
def decodeBytes : List Byte → Except DecodeError (Instr × List Byte)
  | high :: low :: rest => .ok (decode (joinBytes high low), rest)
  | [_] => .error .truncated
  | [] => .error .truncated

/-- The bytes of a word as memory holds them, lowest address first (rule R53). -/
def wordBytes (w : Word) : List Byte := [highByte w, lowByte w]

/-- The word whose bits the opcode table numbers 0 to `nbits - 1`, every bit above them 0. The table numbers a word
as rule R8 does: bit 0 is the least significant bit of `op`. -/
def tableWord (nbits w : Nat) : Word := BitVec.ofNat 16 (w % 2 ^ nbits)

/-- What the decoder reads from an instruction whose bits are `w`, laid out in memory order (rule R53). -/
def decodeTableWord (nbits w : Nat) : Option Instr :=
  match decodeBytes (wordBytes (tableWord nbits w)) with
  | .ok (i, _) => some i
  | .error _ => none

/-! ### The encoder -/

/-- The word of an instruction, written from the formats of rule R81 and the matches of rule R85. -/
def encode : Instr → Word
  | .cls => formatNnn 0x0 0x0E0
  | .ret => formatNnn 0x0 0x0EE
  | .sys nnn => formatNnn 0x0 nnn
  | .jp nnn => formatNnn 0x1 nnn
  | .call nnn => formatNnn 0x2 nnn
  | .seImm x kk => formatXkk 0x3 x kk
  | .sneImm x kk => formatXkk 0x4 x kk
  | .seReg x y => formatXyn 0x5 x y 0x0
  | .ldImm x kk => formatXkk 0x6 x kk
  | .addImm x kk => formatXkk 0x7 x kk
  | .ldReg x y => formatXyn 0x8 x y 0x0
  | .orReg x y => formatXyn 0x8 x y 0x1
  | .andReg x y => formatXyn 0x8 x y 0x2
  | .xorReg x y => formatXyn 0x8 x y 0x3
  | .addReg x y => formatXyn 0x8 x y 0x4
  | .subReg x y => formatXyn 0x8 x y 0x5
  | .shr x y => formatXyn 0x8 x y 0x6
  | .subnReg x y => formatXyn 0x8 x y 0x7
  | .shl x y => formatXyn 0x8 x y 0xE
  | .sneReg x y => formatXyn 0x9 x y 0x0
  | .ldI nnn => formatNnn 0xA nnn
  | .jpV0 nnn => formatNnn 0xB nnn
  | .rnd x kk => formatXkk 0xC x kk
  | .drw x y n => formatXyn 0xD x y n
  | .skp x => formatXkk 0xE x 0x9E
  | .sknp x => formatXkk 0xE x 0xA1
  | .ldVxDt x => formatXkk 0xF x 0x07
  | .ldVxK x => formatXkk 0xF x 0x0A
  | .ldDtVx x => formatXkk 0xF x 0x15
  | .ldStVx x => formatXkk 0xF x 0x18
  | .addI x => formatXkk 0xF x 0x1E
  | .ldFont x => formatXkk 0xF x 0x29
  | .storeBcd x => formatXkk 0xF x 0x33
  | .storeRegs x => formatXkk 0xF x 0x55
  | .loadRegs x => formatXkk 0xF x 0x65
  | .undef w => w

end Sys2Proof
end

