-- ==== Sys2Proof/Config.lean ====
section
/-! DEFINITION. What an implementation fixes: the parameters of `00_scope.md` rule R6, their defaults, and the free
inputs the two input ports deliver (`60_exceptions.md` rules R231, R233). -/

namespace Sys2Proof

/-- The parameters of rule R6 that a model takes as arguments. They are fixed at construction and no operation
changes them (rule R7); `State.config` carries them, so that a statement about every state is one about every choice
of them (assumption 5). -/
structure Config where
  /-- `W`, the display width in pixels (rules R6, R7). -/
  width : Nat
  /-- `H`, the display height in pixels (rules R6, R7). -/
  height : Nat
  /-- `KEYSPACE`, the number of keys of the input port (rule R6). -/
  keyspace : Nat
  /-- `FONT_TABLE`, the 80 glyph bytes (rules R6, R33). -/
  font : List Byte
  deriving DecidableEq, Repr

/-- `MEM_SIZE` (rule R6). -/
abbrev memSize : Nat := 4096

/-- `PROGRAM_BASE` (rule R6). -/
abbrev programBase : Word := 0x200

/-- `MAX_ROM = MEM_SIZE - PROGRAM_BASE` (rule R6). -/
abbrev maxRom : Nat := 3584

/-- `STACK_DEPTH` (rule R6). -/
abbrev stackDepth : Nat := 16

/-- `FONT_BASE` (rule R6; `90_conflicts.md` C1). -/
abbrev fontBase : Nat := 0

/-- `FONT_GLYPHS * GLYPH_BYTES` (rule R6). -/
abbrev fontSize : Nat := 80

/-- The default `FONT_TABLE` of rule R33. PRESUMED: the rule marks these bytes as general knowledge, not the source's
(assumption 6, unsafe for a claim about drawn glyphs). -/
def Config.defaultFont : List Byte :=
  [ 0xF0, 0x90, 0x90, 0x90, 0xF0, 0x20, 0x60, 0x20, 0x20, 0x70, 0xF0, 0x10, 0xF0, 0x80, 0xF0,
    0xF0, 0x10, 0xF0, 0x10, 0xF0, 0x90, 0x90, 0xF0, 0x10, 0x10, 0xF0, 0x80, 0xF0, 0x10, 0xF0 ] ++
  [ 0xF0, 0x80, 0xF0, 0x90, 0xF0, 0xF0, 0x10, 0x20, 0x40, 0x40, 0xF0, 0x90, 0xF0, 0x90, 0xF0,
    0xF0, 0x90, 0xF0, 0x10, 0xF0, 0xF0, 0x90, 0xF0, 0x90, 0x90, 0xE0, 0x90, 0xE0, 0x90, 0xE0 ] ++
  [ 0xF0, 0x80, 0x80, 0x80, 0xF0, 0xE0, 0x90, 0x90, 0x90, 0xE0, 0xF0, 0x80, 0xF0, 0x80, 0xF0,
    0xF0, 0x80, 0xF0, 0x80, 0x80 ]

/-- The canonical parameters of rule R6: a 64 by 32 display, 16 keys (PRESUMED, the rule's own mark; assumption 7,
unsafe) and the default font. -/
def Config.canonical : Config where
  width := 64
  height := 32
  keyspace := 16
  font := Config.defaultFont

/-- The key state the Input Port shows at the `n`-th sample nothing has scripted: bit `j` is 1 while key `j` is down
(rule R231). No body: a free input under no law (assumption 3, safe). -/
opaque Config.freeKeys : Nat → BitVec 256

/-- The byte the random port delivers at the `n`-th draw nothing has scripted (rule R233). No body: a free input under
no law (assumption 4, safe). -/
opaque Config.freeRand : Nat → Byte

end Sys2Proof
end

