-- ==== Sys2Proof/Machine/State.lean ====
section
/-! DEFINITION. The machine's state as plain data (`10_state.md` rules R20 to R44), the faults and refusals, and the
state RESET leaves (`70_reset_and_hazards.md` rule R250). -/

namespace Sys2Proof.Machine

/-- The four faults of `60_exceptions.md` rule R210, with the value it records where rule R212 keeps one. The machine
TAKES a fault: the STEP answers a next state whose `status` holds it (rules R30, R212), so no step answers
`Host.Outcome.fault` (assumption 1, safe: a claim that wants "no fault occurred" says so of `status`). -/
inductive Fault where
  /-- Code 1. Raised by STEP before the fetch when `pc + 1 >= 4096`; records `pc` (rules R55, R214). Safe: the spec's
  own choice of hard-fail over wrap or clamp (assumption 16). -/
  | fetchOutOfBounds (addr : Nat)
  /-- Code 2. Raised by `2nnn` with `SP = 16` (rules R108, R215). Safe (assumption 17). -/
  | stackOverflow
  /-- Code 3. Raised by `00EE` with `SP = 0` (rules R102, R216). Safe (assumption 17). -/
  | stackUnderflow
  /-- Code 4. Raised by `Fx33`, `Fx55`, `Fx65` and `Dxyn` when an address of their range is 4096 or more; records the
  lowest such address (rules R56, R150, R217). Safe (assumption 15). -/
  | memoryOutOfBounds (addr : Nat)
  deriving DecidableEq, Repr

/-- Why an instruction would have no meaning. No instruction of this machine is refused. -/
inductive Refusal where
  /-- An instruction rejected by name; raised by no arm of `exec`. Safe. -/
  | notModelled (mnemonic : String)
  deriving DecidableEq, Repr

/-- `status` (rule R30): `FAULTED` keeps the cause and the address of the faulting instruction. -/
inductive Status where
  | running
  | faulted (cause : Fault) (addr : Word)
  deriving DecidableEq, Repr

/-- The four operations that change the machine's state (`00_scope.md` rule R12). -/
inductive Op where
  | reset
  | load (rom : List Byte)
  | step
  | tick
  deriving DecidableEq, Repr

/-- The model's own record of the outside world: what the host, the driver and the two input ports will do next. The
spec makes these inputs of the machine and not state of it (`10_state.md` rule R38); they are held as data so that a
statement about every state is a statement about every interleaving of the operations (rule R236) and every history
of the inputs (rules R231, R233) (assumptions 2, 3, 4). -/
structure Ports where
  /-- The operations requested next, oldest first; when none is listed the driver requests a STEP. -/
  requests : List Op
  /-- The samples of `KEYS` delivered next, oldest first; when none is listed the next free sample is delivered. -/
  keySamples : List (BitVec 256)
  /-- The bytes of the random port delivered next, oldest first; when none is listed the next free byte is. -/
  randBytes : List Byte
  /-- How many free key samples have been delivered. -/
  keyDraws : Nat
  /-- How many free random bytes have been delivered. -/
  randDraws : Nat
  deriving DecidableEq, Repr

/-- Nothing scripted, no free input drawn yet (DESIGN CHOICE, assumptions 2, 3, 4). -/
def Ports.initial : Ports where
  requests := []
  keySamples := []
  randBytes := []
  keyDraws := 0
  randDraws := 0

/-- The whole machine. -/
structure State where
  /-- The parameters `W`, `H`, `KEYSPACE`, `FONT_TABLE` this machine was constructed with (rules R6, R7). -/
  config : Config
  /-- `V0..VF` (rule R20). -/
  v : Vector Byte 16
  /-- `I` (rule R22). -/
  index : Word
  /-- `pc` (rule R23). -/
  pc : Word
  /-- `STACK[0..15]` (rule R26). -/
  stack : Vector Word 16
  /-- `SP`, 0..16 (rule R27). -/
  sp : Fin 17
  /-- `DT` (rule R28). -/
  dt : Byte
  /-- `ST` (rule R28). -/
  st : Byte
  /-- `TONE` (rule R29). -/
  tone : Bool
  /-- `status` (rule R30). -/
  status : Status
  /-- `MEM` (rule R31), in canonical form: addresses strictly rising, no entry equal to the address's reset content,
  which is what an unlisted address reads as (rule R32; assumption 21). -/
  mem : List Host.Cell
  /-- The packed buffer `BUF` of the Display (rules R34, R35), in the same form; an unlisted byte is 0
  (assumption 22). -/
  fb : List Host.Cell
  /-- The outside world as the model sees it. -/
  ports : Ports
  deriving DecidableEq, Repr

/-- The state after RESET of a machine with the given parameters (rules R44, R250); the outside world is not the
machine's and is kept. -/
def State.construct (c : Config) (p : Ports) : State where
  config := c
  v := Vector.replicate 16 0
  index := 0
  pc := programBase
  stack := Vector.replicate 16 0
  sp := 0
  dt := 0
  st := 0
  tone := false
  status := .running
  mem := []
  fb := []
  ports := p

/-- The canonical machine right after RESET (rule R44). -/
def State.reset : State := State.construct Config.canonical Ports.initial

end Sys2Proof.Machine
end

