-- ==== Sys2Proof/Machine/Ops.lean ====
section
/-! DEFINITION. The named operations over the state: memory and the packed buffer as canonical lists of cells, the
registers, the stack, the two sampled input ports, the data bound, and taking a fault, each in one place. -/

namespace Sys2Proof.Machine

/-! ### Cells: sparse byte storage in canonical form

A list of (address, byte) pairs; `d` says what an unlisted address reads as. -/

/-- The byte at an address: the listed one, or what an unlisted address reads as. -/
def readCells (d : Nat → Byte) : List Host.Cell → Nat → Byte
  | [], a => d a
  | (k, c) :: rest, a => if a = k then c else readCells d rest a

/-- The list after a byte is written, kept in canonical form: sorted, and no entry for a byte an unlisted address
reads as anyway. -/
def writeCells (d : Nat → Byte) : List Host.Cell → Nat → Byte → List Host.Cell
  | [], a, b => if b = d a then [] else [(a, b)]
  | (k, c) :: rest, a, b =>
    if a < k then (if b = d a then (k, c) :: rest else (a, b) :: (k, c) :: rest)
    else if a = k then (if b = d a then rest else (a, b) :: rest)
    else (k, c) :: writeCells d rest a b

/-- Canonical form: addresses strictly rising from `lo`, all below `hi`, no entry equal to what an unlisted address
reads as. -/
def cellsWf (d : Nat → Byte) (hi : Nat) : Nat → List Host.Cell → Bool
  | _, [] => true
  | lo, (k, c) :: rest => decide (lo ≤ k) && decide (k < hi) && (c != d k) && cellsWf d hi (k + 1) rest

/-! ### Memory (rules R31, R32, R58) -/

/-- The content of an address after RESET: the font table at `FONT_BASE`, zero elsewhere (rules R32, R44). It is what
an address the memory does not list reads as (assumption 21). -/
def resetByte (c : Config) (a : Nat) : Byte :=
  if fontBase ≤ a ∧ a < fontBase + fontSize then c.font.getD (a - fontBase) 0 else 0

/-- `MemRead(addr, 1)` (rule R10). The bound of rule R56 is checked by the instruction first (`State.dataFault`). -/
def State.readMem (s : State) (a : Nat) : Byte := readCells (resetByte s.config) s.mem a

/-- `MemWrite(addr, 1, v)` (rule R10), under the same bound. -/
def State.writeMem (s : State) (a : Nat) (b : Byte) : State :=
  { s with mem := writeCells (resetByte s.config) s.mem a b }

/-- The `n` bytes from address `a` upward, in ascending order (rule R59). -/
def State.readBytes (s : State) : Nat → Nat → List Byte
  | _, 0 => []
  | a, n + 1 => s.readMem a :: s.readBytes (a + 1) n

/-- Bytes written from address `a` upward, in ascending order (rule R59). -/
def State.writeBytes (s : State) : Nat → List Byte → State
  | _, [] => s
  | a, b :: bs => (s.writeMem a b).writeBytes (a + 1) bs

/-- Memory is in canonical form and lists only addresses that exist (rule R31). -/
def Memory.wf (c : Config) (mem : List Host.Cell) : Bool := cellsWf (resetByte c) memSize 0 mem

/-! ### Registers (rules R20 to R23, R28) -/

/-- `V[x]`. -/
def State.reg (s : State) (x : Reg) : Byte := s.v[x.toNat]'x.isLt

/-- `V[x] <- b`. -/
def State.setReg (s : State) (x : Reg) (b : Byte) : State := { s with v := s.v.set x.toNat b x.isLt }

/-- `I <- w`. -/
def State.setIndex (s : State) (w : Word) : State := { s with index := w }

/-- `pc <- w`. -/
def State.setPc (s : State) (w : Word) : State := { s with pc := w }

/-- `DT <- b`. -/
def State.setDt (s : State) (b : Byte) : State := { s with dt := b }

/-- `ST <- b`. -/
def State.setSt (s : State) (b : Byte) : State := { s with st := b }

/-- The Display's packed buffer replaced. -/
def State.setFb (s : State) (buf : List Host.Cell) : State := { s with fb := buf }

/-- The registers `V[k], V[k+1], ...`, `n` of them, in ascending order (rule R59). -/
def State.readRegs (s : State) : Nat → Nat → List Byte
  | _, 0 => []
  | k, n + 1 => s.reg (BitVec.ofNat 4 k) :: s.readRegs (k + 1) n

/-- Bytes loaded into `V[k], V[k+1], ...` in ascending order (rule R59). -/
def State.writeRegs (s : State) : Nat → List Byte → State
  | _, [] => s
  | k, b :: bs => (s.setReg (BitVec.ofNat 4 k) b).writeRegs (k + 1) bs

/-! ### The stack (rules R26, R27) -/

/-- A stack entry `STACK[j]`. -/
def State.stackEntry (s : State) (j : Nat) (h : j < 16) : Word := s.stack[j]

/-- `STACK[SP] <- w; SP <- SP + 1` where there is a free entry; none when `SP = 16` (rules R27, R108). -/
def State.push (s : State) (w : Word) : Option State :=
  if h : s.sp.val < 16 then
    some { s with stack := s.stack.set s.sp.val w h, sp := ⟨s.sp.val + 1, by omega⟩ }
  else none

/-- `SP <- SP - 1` and the entry then at `STACK[SP]`, which keeps its value; none when `SP = 0` (rules R26, R102). -/
def State.pop (s : State) : Option (Word × State) :=
  if h : 0 < s.sp.val then
    have hs : s.sp.val < 17 := s.sp.isLt
    some (s.stackEntry (s.sp.val - 1) (by omega), { s with sp := ⟨s.sp.val - 1, by omega⟩ })
  else none

/-! ### The input ports (rules R231 to R233) -/

/-- One sample of `KEYS` and the state after it: the next scripted sample, or the next free one (rule R231). -/
def State.sampleKeys (s : State) : BitVec 256 × State :=
  match s.ports.keySamples with
  | ks :: rest => (ks, { s with ports := { s.ports with keySamples := rest } })
  | [] => (Config.freeKeys s.ports.keyDraws, { s with ports := { s.ports with keyDraws := s.ports.keyDraws + 1 } })

/-- `RandByte()` and the state after it: the next scripted byte, or the next free one (rule R233). -/
def State.drawRand (s : State) : Byte × State :=
  match s.ports.randBytes with
  | b :: rest => (b, { s with ports := { s.ports with randBytes := rest } })
  | [] => (Config.freeRand s.ports.randDraws, { s with ports := { s.ports with randDraws := s.ports.randDraws + 1 } })

/-- `KeyPressed(k)`: false for a number outside the keyspace, `k` not masked (rule R231; assumption 10). -/
def keyPressed (c : Config) (keys : BitVec 256) (k : Byte) : Bool :=
  decide (k.toNat < c.keyspace) && keys.getLsbD k.toNat

/-- The least key from `j` upward, of `n` keys, that is down. -/
def firstKey (keys : BitVec 256) : Nat → Nat → Option Nat
  | _, 0 => none
  | j, n + 1 => if keys.getLsbD j then some j else firstKey keys (j + 1) n

/-- `AnyPressed()`: the lowest-numbered key that is down, or none (rule R232). -/
def anyPressed (c : Config) (keys : BitVec 256) : Option Byte :=
  (firstKey keys 0 c.keyspace).map (BitVec.ofNat 8)

/-! ### Faults (rules R210 to R217) -/

/-- Taking a fault (rule R212): `pc` holds `a`, the address of the faulting instruction, and `status` records the
fault and `a`; nothing else of the state before the STEP has changed, for every check stands before the first write.
Nothing is saved elsewhere and control goes nowhere. -/
def State.takeFault (s : State) (f : Fault) (a : Word) : State := { s with pc := a, status := .faulted f a }

/-- A fault raised by the execute part of a STEP, where `pc` is already `a + 2` (rules R100, R212). -/
def State.raise (s : State) (f : Fault) : State := s.takeFault f (s.pc - 2)

/-- The data bound of a `len`-byte access at `I` (rules R56, R150): the whole range is checked with unbounded
arithmetic, the lowest address of 4096 or more is recorded, and an empty range cannot fault. -/
def State.dataFault (s : State) (len : Nat) : Option Fault :=
  if 0 < len ∧ memSize ≤ s.index.toNat + len - 1 then
    some (.memoryOutOfBounds (max s.index.toNat memSize))
  else none

end Sys2Proof.Machine
end

