-- ==== Sys2Proof/Machine/Operands.lean ====
section
/-! DEFINITION. Operand forms: how the immediates are widened, the addresses instructions compute, and the bytes the
block instructions move (`30_encoding.md` rule R83, `20_memory.md` rule R57). -/

namespace Sys2Proof.Machine

/-- `zext_16(nnn)`: an absolute address or index value (rule R83). -/
def zextAddr (nnn : Addr12) : Word := nnn.zeroExtend 16

/-- `zext_16(b)`: a byte as an unsigned 16-bit value (rule R8). -/
def zextByte (b : Byte) : Word := b.zeroExtend 16

/-- The target of `Bnnn`, `zext_16(nnn) + zext_16(V[0])`; the sum always fits 16 bits (rule R109). -/
def jumpV0Target (s : State) (nnn : Addr12) : Word := zextAddr nnn + zextByte (s.reg 0)

/-- The address of glyph `b` as `Fx29` computes it, `FONT_BASE + 5 * b`, for all 256 values of `b` (rule R153;
assumption 19). -/
def glyphAddress (b : Byte) : Word := BitVec.ofNat 16 fontBase + 5 * zextByte b

/-- The three decimal digits `Fx33` stores, hundreds first (rule R154). -/
def bcdDigits (b : Byte) : List Byte :=
  [BitVec.ofNat 8 (b.toNat / 100), BitVec.ofNat 8 (b.toNat / 10 % 10), BitVec.ofNat 8 (b.toNat % 10)]

/-- How many registers `V0..Vx` names (rules R156, R157). -/
def blockLength (x : Reg) : Nat := x.toNat + 1

/-- `pc <- pc + 2` when the condition holds: a skip (rules R104 to R107, R190, R191). -/
def State.skipIf (s : State) (cond : Bool) : State := if cond then s.setPc (s.pc + 2) else s

end Sys2Proof.Machine
end

