-- ==== Sys2Proof/Machine/Control.lean ====
section
/-! DEFINITION. Control flow (`40_control_flow.md` rules R101 to R109) and the undefined words (`30_encoding.md`
rule R86). Every meaning runs with `pc` already at `a + 2` (rule R100). -/

namespace Sys2Proof.Machine

/-- What every meaning answers. -/
abbrev Result := Host.Outcome State Fault Refusal

/-- `0nnn`: a no-op, `nnn` ignored (rule R101). -/
def execSys (_nnn : Addr12) (s : State) : Result := .next s

/-- `00EE`: pop `pc`; StackUnderflow when `SP = 0` (rule R102). -/
def execRet (s : State) : Result :=
  match s.pop with
  | some (target, s') => .next (s'.setPc target)
  | none => .next (s.raise .stackUnderflow)

/-- `1nnn`: `pc <- nnn` (rule R103). -/
def execJp (nnn : Addr12) (s : State) : Result := .next (s.setPc (zextAddr nnn))

/-- `2nnn`: push the advanced `pc`, jump; StackOverflow when `SP = 16` (rule R108). -/
def execCall (nnn : Addr12) (s : State) : Result :=
  match s.push s.pc with
  | some s' => .next (s'.setPc (zextAddr nnn))
  | none => .next (s.raise .stackOverflow)

/-- `3xkk`: skip if `V[x] = kk` (rule R104). -/
def execSeImm (x : Reg) (kk : Byte) (s : State) : Result := .next (s.skipIf (s.reg x == kk))

/-- `4xkk`: skip if `V[x] != kk` (rule R105). -/
def execSneImm (x : Reg) (kk : Byte) (s : State) : Result := .next (s.skipIf (s.reg x != kk))

/-- `5xy0`: skip if `V[x] = V[y]` (rule R106). -/
def execSeReg (x y : Reg) (s : State) : Result := .next (s.skipIf (s.reg x == s.reg y))

/-- `9xy0`: skip if `V[x] != V[y]` (rule R107). -/
def execSneReg (x y : Reg) (s : State) : Result := .next (s.skipIf (s.reg x != s.reg y))

/-- `Bnnn`: `pc <- nnn + V0` (rule R109). -/
def execJpV0 (nnn : Addr12) (s : State) : Result := .next (s.setPc (jumpV0Target s nnn))

/-- An undefined word: a silent no-op; nothing but the advance the STEP has made (rules R86, R87; assumption 13). -/
def execUndef (_w : Word) (s : State) : Result := .next s

end Sys2Proof.Machine
end

