-- ==== Sys2Proof/Machine/Flags.lean ====
section
/-! DEFINITION. The values written to `VF` as a flag, and the write itself (`10_state.md` rule R21, `41_alu.md`
rules R127 to R131). The full byte 0 or 1 is stored, not one bit. -/

namespace Sys2Proof.Machine

/-- The byte a flag is stored as (rule R21). -/
def flagByte (f : Bool) : Byte := if f then 1 else 0

/-- `V[F] <- 1 if f else 0`. -/
def State.setFlag (s : State) (f : Bool) : State := s.setReg VF (flagByte f)

/-- Carry out of bit 7 of a sum: the true sum is above 255 (rule R127). -/
def carryOut (a b : Byte) : Bool := decide (255 < a.toNat + b.toNat)

/-- Unsigned, strictly greater: the flag of a subtraction `a - b` (rules R128, R130). -/
def greater (a b : Byte) : Bool := decide (b.toNat < a.toNat)

/-- The bit a right shift by 1 drops (rule R129). -/
def bitOutRight (a : Byte) : Bool := a.getLsbD 0

/-- The bit a left shift by 1 drops (rule R131). -/
def bitOutLeft (a : Byte) : Bool := a.getLsbD 7

end Sys2Proof.Machine
end

