-- ==== Sys2Proof/Machine/Alu.lean ====
section
/-! DEFINITION. Register load, arithmetic, logic, shift and random instructions (`41_alu.md` rules R121 to R132). A
flag-writing instruction executes its statements in the order written, each reading the registers as the one before
left them (rule R120; assumption 8). -/

namespace Sys2Proof.Machine

/-- `6xkk`: `V[x] <- kk` (rule R121). -/
def execLdImm (x : Reg) (kk : Byte) (s : State) : Result := .next (s.setReg x kk)

/-- `7xkk`: `V[x] <- V[x] + kk` modulo 256, no flag (rule R122). -/
def execAddImm (x : Reg) (kk : Byte) (s : State) : Result := .next (s.setReg x (s.reg x + kk))

/-- `8xy0`: `V[x] <- V[y]` (rule R123). -/
def execLdReg (x y : Reg) (s : State) : Result := .next (s.setReg x (s.reg y))

/-- `8xy1`: bitwise OR, `VF` not written as a flag (rule R124). -/
def execOrReg (x y : Reg) (s : State) : Result := .next (s.setReg x (s.reg x ||| s.reg y))

/-- `8xy2`: bitwise AND, `VF` not written as a flag (rule R125). -/
def execAndReg (x y : Reg) (s : State) : Result := .next (s.setReg x (s.reg x &&& s.reg y))

/-- `8xy3`: bitwise exclusive OR, `VF` not written as a flag (rule R126). -/
def execXorReg (x y : Reg) (s : State) : Result := .next (s.setReg x (s.reg x ^^^ s.reg y))

/-- `8xy4`: the sum is taken before any write, then `VF` is the carry, then `V[x]` the low 8 bits (rule R127). -/
def execAddReg (x y : Reg) (s : State) : Result :=
  .next ((s.setFlag (carryOut (s.reg x) (s.reg y))).setReg x (s.reg x + s.reg y))

/-- `8xy5`: `VF <- (V[x] > V[y])`, then `V[x] <- V[x] - V[y]` with the registers as the flag left them (rule R128). -/
def execSubReg (x y : Reg) (s : State) : Result :=
  let t := s.setFlag (greater (s.reg x) (s.reg y))
  .next (t.setReg x (t.reg x - t.reg y))

/-- `8xy6`: `VF <- V[x] & 1`, then `V[x] <- V[x] >> 1`; `y` ignored (rule R129). -/
def execShr (x _y : Reg) (s : State) : Result :=
  let t := s.setFlag (bitOutRight (s.reg x))
  .next (t.setReg x (t.reg x >>> 1))

/-- `8xy7`: `VF <- (V[y] > V[x])`, then `V[x] <- V[y] - V[x]` with the registers as the flag left them (rule R130). -/
def execSubnReg (x y : Reg) (s : State) : Result :=
  let t := s.setFlag (greater (s.reg y) (s.reg x))
  .next (t.setReg x (t.reg y - t.reg x))

/-- `8xyE`: `VF <- V[x][7]`, then `V[x] <- V[x] << 1`; `y` ignored (rule R131). -/
def execShl (x _y : Reg) (s : State) : Result :=
  let t := s.setFlag (bitOutLeft (s.reg x))
  .next (t.setReg x (t.reg x <<< 1))

/-- `Cxkk`: `V[x] <- RandByte() & kk` (rule R132). -/
def execRnd (x : Reg) (kk : Byte) (s : State) : Result :=
  let drawn := s.drawRand
  .next (drawn.2.setReg x (drawn.1 &&& kk))

end Sys2Proof.Machine
end

