-- ==== Sys2Proof/Machine/Framebuffer.lean ====
section
/-! DEFINITION. The framebuffer controller over the packed buffer (`10_state.md` rules R34 to R36, `43_display.md`
rules R171 to R178): clear, get, set, the clipped draw no instruction uses, and the wrapped drawing of `Dxyn`. -/

namespace Sys2Proof.Machine

/-- `ROW_BYTES = ceil(W / 8)` (rules R6, R35). -/
def rowBytes (c : Config) : Nat := (c.width + 7) / 8

/-- How many bytes the packed buffer has (rule R35). -/
def bufferSize (c : Config) : Nat := rowBytes c * c.height

/-- What a buffer byte the state does not list reads as (rule R34: reset value 0; assumption 22). -/
def blankByte (_ : Nat) : Byte := 0

/-- `BUF[k]`, the raw packed buffer of rule R35. -/
def bufByte (buf : List Host.Cell) (k : Nat) : Byte := readCells blankByte buf k

/-- `clear()`: every byte zero, that is, none listed (rule R173). -/
def clearBuffer : List Host.Cell := []

/-- The byte of the packed buffer that holds a pixel (rule R35). -/
def pixelByte (c : Config) (px py : Nat) : Nat := py * rowBytes c + px / 8

/-- The bit of that byte, most significant first (rule R35). -/
def pixelBit (px : Nat) : Nat := 7 - px % 8

/-- Coordinates on the display (rules R174, R175). -/
def onDisplay (c : Config) (px py : Nat) : Bool := decide (px < c.width) && decide (py < c.height)

/-- `get(px, py)`: false out of range (rule R175). -/
def getPixel (c : Config) (buf : List Host.Cell) (px py : Nat) : Bool :=
  if onDisplay c px py then (bufByte buf (pixelByte c px py)).getLsbD (pixelBit px) else false

/-- A byte with one bit set to a value and the other seven kept (rule R174). -/
def putBit (b : Byte) (j : Nat) (on : Bool) : Byte :=
  if on then b ||| BitVec.twoPow 8 j else b &&& ~~~(BitVec.twoPow 8 j)

/-- `set(px, py, on)`: one bit of the packed buffer, nothing out of range (rule R174). -/
def setPixel (c : Config) (buf : List Host.Cell) (px py : Nat) (on : Bool) : List Host.Cell :=
  if onDisplay c px py then
    writeCells blankByte buf (pixelByte c px py) (putBit (bufByte buf (pixelByte c px py)) (pixelBit px) on)
  else buf

/-- A flip: `get` followed by `set` of the opposite value (rule R178). -/
def flipPixel (c : Config) (buf : List Host.Cell) (p : Nat × Nat) : List Host.Cell :=
  setPixel c buf p.1 p.2 (!getPixel c buf p.1 p.2)

/-- The columns of a sprite byte whose bit is 1, left to right from column `k`, of `n` columns; bit 7 is the leftmost
column (rule R172 (c); assumption 20). -/
def spriteColumns (b : Byte) : Nat → Nat → List Nat
  | _, 0 => []
  | k, n + 1 => if b.getLsbD (7 - k) then k :: spriteColumns b (k + 1) n else spriteColumns b (k + 1) n

/-- The (column, row) pairs of a sprite whose bit is 1, in the order they are processed: rows top to bottom from row
`r`, columns left to right (rule R171). -/
def spritePoints : Nat → List Byte → List (Nat × Nat)
  | _, [] => []
  | r, b :: bs => (spriteColumns b 0 8).map (fun k => (k, r)) ++ spritePoints (r + 1) bs

/-- The pixels flipped one after the other, and whether one of them was on when it was reached (rules R171,
R172 (g)). -/
def flipAll (c : Config) : List Host.Cell → List (Nat × Nat) → List Host.Cell × Bool
  | buf, [] => (buf, false)
  | buf, p :: ps =>
    let rest := flipAll c (flipPixel c buf p) ps
    (rest.1, getPixel c buf p.1 p.2 || rest.2)

/-- `draw(x0, y0, bytes)`: the clipped XOR-blit of the controller's surface; a flip out of range does nothing, for
`set` does nothing there (rule R176; assumption 35). No instruction uses it. -/
def drawClipped (c : Config) (buf : List Host.Cell) (x0 y0 : Nat) (bytes : List Byte) : List Host.Cell :=
  (flipAll c buf ((spritePoints 0 bytes).map fun p => (x0 + p.1, y0 + p.2))).1

/-- The target pixels of `Dxyn`, wrapped on both axes (rules R171, R172 (a)). -/
def wrappedTargets (c : Config) (x0 y0 : Nat) (bytes : List Byte) : List (Nat × Nat) :=
  (spritePoints 0 bytes).map fun p => ((x0 + p.1) % c.width, (y0 + p.2) % c.height)

/-- The drawing of `Dxyn` with its origin and its rows: the buffer after it, and the collision (rule R171). -/
def drawWrapped (c : Config) (buf : List Host.Cell) (x0 y0 : Nat) (bytes : List Byte) : List Host.Cell × Bool :=
  flipAll c buf (wrappedTargets c x0 y0 bytes)

/-- The packed buffer of a state, in canonical form, no listed byte outside it (rule R35). -/
def bufferWf (c : Config) (buf : List Host.Cell) : Bool := cellsWf blankByte (bufferSize c) 0 buf

/-- Every padding bit is 0: the low-order bits of each row's last byte that stand for no pixel (rule R36). -/
def paddingClear (c : Config) (buf : List Host.Cell) : Bool :=
  buf.all fun cell =>
    if cell.1 % rowBytes c + 1 = rowBytes c then cell.2.toNat % 2 ^ (8 * rowBytes c - c.width) == 0 else true

/-- `get_pixel(x, y)`, the Display read surface (rule R235). -/
def State.getPixel (s : State) (px py : Nat) : Bool := Machine.getPixel s.config s.fb px py

/-- The raw packed buffer for bulk rendering, byte 0 first (rules R178, R235). -/
def State.rawBuffer (s : State) : List Byte := (List.range (bufferSize s.config)).map (bufByte s.fb)

end Sys2Proof.Machine
end

