-- ==== Sys2Proof/Machine/Display.lean ====
section
/-! DEFINITION. The two display instructions (`43_display.md` rules R170 to R172). -/

namespace Sys2Proof.Machine

/-- `00E0`: clear the Display (rule R170). -/
def execCls (s : State) : Result := .next (s.setFb clearBuffer)

/-- `Dxyn`: XOR-draw `n` sprite rows from `I` at the origin `(V[x] mod W, V[y] mod H)`, read before `VF` is reset,
wrapping every pixel; `VF` is the collision; the range is checked first, and an empty one cannot fault (rules R171,
R172; assumption 9). -/
def execDrw (x y : Reg) (n : Nibble) (s : State) : Result :=
  match s.dataFault n.toNat with
  | some f => .next (s.raise f)
  | none =>
    let drawn := drawWrapped s.config s.fb ((s.reg x).toNat % s.config.width) ((s.reg y).toNat % s.config.height)
      (s.readBytes s.index.toNat n.toNat)
    .next ((s.setFlag drawn.2).setFb drawn.1)

end Sys2Proof.Machine
end

