-- ==== Sys2Proof/Machine/IndexMemory.lean ====
section
/-! DEFINITION. Index-register and memory instructions (`42_index_memory.md` rules R151 to R157). The three memory
instructions check their whole range before any access, and none moves `I` (rule R150; assumptions 14, 15). -/

namespace Sys2Proof.Machine

/-- `Annn`: `I <- nnn` (rule R151). -/
def execLdI (nnn : Addr12) (s : State) : Result := .next (s.setIndex (zextAddr nnn))

/-- `Fx1E`: `I <- I + V[x]` modulo 65536, no flag (rule R152; assumption 33). -/
def execAddI (x : Reg) (s : State) : Result := .next (s.setIndex (s.index + zextByte (s.reg x)))

/-- `Fx29`: `I <- FONT_BASE + 5 * V[x]`, `V[x]` not masked (rule R153). -/
def execLdFont (x : Reg) (s : State) : Result := .next (s.setIndex (glyphAddress (s.reg x)))

/-- `Fx33`: the three decimal digits of `V[x]` to `I`, `I + 1`, `I + 2` (rule R154). -/
def execStoreBcd (x : Reg) (s : State) : Result :=
  match s.dataFault 3 with
  | some f => .next (s.raise f)
  | none => .next (s.writeBytes s.index.toNat (bcdDigits (s.reg x)))

/-- `Fx55`: `V0..Vx` to `I .. I + x` (rule R156). -/
def execStoreRegs (x : Reg) (s : State) : Result :=
  match s.dataFault (blockLength x) with
  | some f => .next (s.raise f)
  | none => .next (s.writeBytes s.index.toNat (s.readRegs 0 (blockLength x)))

/-- `Fx65`: `V0..Vx` from `I .. I + x` (rule R157). -/
def execLoadRegs (x : Reg) (s : State) : Result :=
  match s.dataFault (blockLength x) with
  | some f => .next (s.raise f)
  | none => .next (s.writeRegs 0 (s.readBytes s.index.toNat (blockLength x)))

end Sys2Proof.Machine
end

