-- ==== Sys2Proof/Machine/KeysTimers.lean ====
section
/-! DEFINITION. Key and timer instructions (`44_keys_timers.md` rules R190 to R195). Each key instruction takes one
sample of the key state (rule R231). -/

namespace Sys2Proof.Machine

/-- `Ex9E`: skip if key `V[x]` is pressed (rule R190). -/
def execSkp (x : Reg) (s : State) : Result :=
  let sample := s.sampleKeys
  .next (sample.2.skipIf (keyPressed s.config sample.1 (s.reg x)))

/-- `ExA1`: skip if key `V[x]` is not pressed (rule R191). -/
def execSknp (x : Reg) (s : State) : Result :=
  let sample := s.sampleKeys
  .next (sample.2.skipIf (!keyPressed s.config sample.1 (s.reg x)))

/-- `Fx0A`: the lowest pressed key into `V[x]`, or `pc` back to this instruction when none is pressed (rule R192). -/
def execLdVxK (x : Reg) (s : State) : Result :=
  let sample := s.sampleKeys
  match anyPressed s.config sample.1 with
  | some k => .next (sample.2.setReg x k)
  | none => .next (sample.2.setPc (s.pc - 2))

/-- `Fx07`: `V[x] <- DT` (rule R193). -/
def execLdVxDt (x : Reg) (s : State) : Result := .next (s.setReg x s.dt)

/-- `Fx15`: `DT <- V[x]` (rule R194). -/
def execLdDtVx (x : Reg) (s : State) : Result := .next (s.setDt (s.reg x))

/-- `Fx18`: `ST <- V[x]`; `TONE` waits for the next TICK (rule R195). -/
def execLdStVx (x : Reg) (s : State) : Result := .next (s.setSt (s.reg x))

end Sys2Proof.Machine
end

