-- ==== Sys2Proof/Machine/HostOps.lean ====
section
/-! DEFINITION. The operations of the host and the driver other than STEP: RESET (`70_reset_and_hazards.md` rule
R250), LOAD (rules R255 to R257) and TICK (`60_exceptions.md` rule R224). -/

namespace Sys2Proof.Machine

/-- RESET: every piece of the machine's state to its value of rule R44, `status` to `RUNNING`; the parameters stay
(rule R7) and the outside world is not the machine's (rule R250; assumption 27). -/
def performReset (s : State) : State := State.construct s.config s.ports

/-- Why a LOAD fails (rule R255). It is told to the host and is never a state of the machine (rule R223). -/
inductive LoadError where
  | romTooLarge
  deriving DecidableEq, Repr

/-- LOAD: the image to 0x200 upward and `pc` to 0x200, nothing else; an image above 3584 bytes fails (rules R255 to
R257). -/
def load (rom : List Byte) (s : State) : Except LoadError State :=
  if maxRom < rom.length then .error .romTooLarge
  else .ok ((s.writeBytes programBase.toNat rom).setPc programBase)

/-- The state after a requested LOAD: a failed one changes nothing (rule R255; assumption 28). -/
def performLoad (rom : List Byte) (s : State) : State :=
  match load rom s with
  | .ok s' => s'
  | .error _ => s

/-- A countdown timer after one TICK: decremented toward 0, never below (rules R28, R224). -/
def countDown (b : Byte) : Byte := if b = 0 then 0 else b - 1

/-- TICK: both timers count down, then `TONE` is recomputed from `ST` as just decremented, whatever `status` is
(rules R224 to R226). -/
def tick (s : State) : State :=
  { s with dt := countDown s.dt, st := countDown s.st, tone := decide (0 < (countDown s.st).toNat) }

/-- The oldest request of the outside taken off the list. -/
def State.setRequests (s : State) (ops : List Op) : State := { s with ports := { s.ports with requests := ops } }

end Sys2Proof.Machine
end

