-- ==== Sys2Proof/Machine/Cycle.lean ====
section
/-! DEFINITION. The fetch-decode-execute cycle (`40_control_flow.md` rule R100) and the choice of the next operation
(`00_scope.md` rule R12). -/

namespace Sys2Proof.Machine

/-- `pc + 1 < 4096`: an instruction can be fetched at `pc` (rule R55). -/
def State.fetchable (s : State) : Bool := decide (s.pc.toNat + 1 < memSize)

/-- `MemRead(pc, 2)`, big-endian (rule R53). -/
def State.fetchWord (s : State) : Word := joinBytes (s.readMem s.pc.toNat) (s.readMem (s.pc.toNat + 1))

/-- STEP: nothing while faulted (rule R213); FetchOutOfBounds past the end of memory (rules R55, R214); else fetch,
advance `pc` by 2, decode and execute (rule R100). -/
def stepCpu (s : State) : Result :=
  match s.status with
  | .faulted _ _ => .next s
  | .running =>
    if s.fetchable then exec (decode s.fetchWord) (s.setPc (s.pc + 2))
    else .next (s.takeFault (.fetchOutOfBounds s.pc.toNat) s.pc)

/-- The next operation: the oldest request of the outside, or a STEP when none is listed (rules R12, R236;
assumption 2). -/
def nextOperation (s : State) : Result :=
  match s.ports.requests with
  | [] => stepCpu s
  | .step :: rest => stepCpu (s.setRequests rest)
  | .tick :: rest => .next (tick (s.setRequests rest))
  | .load rom :: rest => .next (performLoad rom (s.setRequests rest))
  | .reset :: rest => .next (performReset (s.setRequests rest))

/-- A word placed where the next STEP fetches, big-endian, and everything that STEP needs to run it: the CPU not
faulted, no other operation requested before it, and `pc` at 0x200 if nothing can be fetched where it stands
(assumption 24). -/
def State.placeWord (s : State) (w : Word) : State :=
  let a := if s.fetchable then s.pc else programBase
  { ((s.setRequests []).writeBytes a.toNat (wordBytes w)).setPc a with status := .running }

end Sys2Proof.Machine
end

