-- ==== Sys2Proof/Machine/Step.lean ====
section
/-! DEFINITION. One step of the machine, and a state that runs a given instruction next. -/

namespace Sys2Proof.Machine

/-- One operation of the machine: the next one the outside requests, a STEP when it requests none
(`00_scope.md` rule R12). -/
def step (s : State) : Host.Outcome State Fault Refusal := Sys2Proof.Machine.nextOperation s

/-- `s` with an instruction of the opcode table placed so that the very next step fetches and runs it. It stands for
the LOAD a program comes to run by (`70_reset_and_hazards.md` rule R258; assumption 24). -/
def State.withFetchWord (s : State) (nbits w : Nat) : State := s.placeWord (Sys2Proof.tableWord nbits w)

end Sys2Proof.Machine
end

