-- ==== Sys2Proof/Safety.lean ====
section
/-! DEFINITION. What claims are stated in: a healthy machine and a safe run, the invariants of the storage and of `pc`,
the end of a run, what the input ports deliver, and the frame of a step: which pieces of state something may change. -/

namespace Sys2Proof.Machine

/-! ### Safe runs -/

/-- No fault has stopped the CPU (rule R30). -/
abbrev State.Running (s : State) : Prop := s.status = .running

/-- The CPU runs and the driver requests nothing but STEPs (rules R12, R30). -/
abbrev State.Ready (s : State) : Prop := s.status = .running ∧ s.ports.requests = []

/-- The next operation is a STEP, requested by the outside or for want of a request (rule R12; assumption 2). -/
abbrev State.StepNext (s : State) : Prop := s.ports.requests = [] ∨ ∃ rest, s.ports.requests = .step :: rest

/-- A run of `n` steps in which no fault occurs: a faulted state is never an accepted end (rule R212). -/
def SafeRun : Nat → State → Prop
  | 0, s => s.Running
  | n + 1, s => s.Running ∧ ∃ t, step s = .next t ∧ SafeRun n t

/-- The spec's own convention for the end of a run (rule R264): the word at `pc` is `1nnn` with `nnn = pc`. -/
def State.atSelfJump (s : State) : Bool := s.fetchable && s.fetchWord.toNat == 0x1000 + s.pc.toNat

/-! ### Invariants -/

/-- The bounds rule R6 puts on the parameters, and the font table's 80 bytes. -/
def configWf (c : Config) : Bool :=
  decide (1 ≤ c.width) && decide (1 ≤ c.height) && decide (1 ≤ c.keyspace) && decide (c.keyspace ≤ 256) &&
    c.font.length == fontSize

/-- The storage invariant: parameters in bounds, memory and packed buffer in canonical form and inside their
ranges (rules R31, R35), and every padding bit 0 (rule R36). -/
abbrev State.Inv (s : State) : Prop :=
  configWf s.config = true ∧ Memory.wf s.config s.mem = true ∧ bufferWf s.config s.fb = true ∧
    paddingClear s.config s.fb = true

/-- The largest `pc` any instruction can leave is that of `Bnnn`, 0x10FE (rule R25); a return address is an advanced
`pc` of a fetchable instruction, so at most 0x1000. -/
abbrev State.PcBound (s : State) : Prop :=
  s.pc.toNat ≤ 0x10FE ∧ ∀ j : Fin 16, s.stack[j].toNat ≤ 0x1000

/-! ### What the input ports deliver -/

/-- The random port at `p` delivers `b` and stands at `q` after it: the oldest scripted byte, which is taken off the
list, or with none scripted the next free one, which is counted (rule R233; assumption 4). -/
def RandDelivered (p : Ports) (b : Byte) (q : Ports) : Prop :=
  (∃ rest, p.randBytes = b :: rest ∧ q = { p with randBytes := rest }) ∨
  (p.randBytes = [] ∧ b = Config.freeRand p.randDraws ∧ q = { p with randDraws := p.randDraws + 1 })

/-- The Input Port at `p` delivers the sample `keys` and stands at `q` after it: the oldest scripted sample, which is
taken off the list, or with none scripted the next free one, which is counted (rule R231; assumption 3). -/
def KeysDelivered (p : Ports) (keys : BitVec 256) (q : Ports) : Prop :=
  (∃ rest, p.keySamples = keys :: rest ∧ q = { p with keySamples := rest }) ∨
  (p.keySamples = [] ∧ keys = Config.freeKeys p.keyDraws ∧ q = { p with keyDraws := p.keyDraws + 1 })

/-! ### Frames -/

/-- Which pieces of state may change. The parameters never may, and neither may the list of requests. -/
structure Touched where
  regs : Reg → Bool := fun _ => false
  index : Bool := false
  pc : Bool := false
  entries : Nat → Bool := fun _ => false
  sp : Bool := false
  dt : Bool := false
  st : Bool := false
  tone : Bool := false
  status : Bool := false
  mem : Nat → Bool := fun _ => false
  display : Bool := false
  ports : Bool := false

/-- Everything outside `m` is as before: every register, `I`, `pc`, every stack entry, `SP`, both timers, `TONE`,
`status`, every byte of memory, every byte of the packed buffer, the input ports, the parameters. -/
def Frame (m : Touched) (s t : State) : Prop :=
  (∀ r, m.regs r = false → t.reg r = s.reg r) ∧
  (m.index = false → t.index = s.index) ∧
  (m.pc = false → t.pc = s.pc) ∧
  (∀ j : Fin 16, m.entries j = false → t.stack[j] = s.stack[j]) ∧
  (m.sp = false → t.sp = s.sp) ∧
  (m.dt = false → t.dt = s.dt) ∧
  (m.st = false → t.st = s.st) ∧
  (m.tone = false → t.tone = s.tone) ∧
  (m.status = false → t.status = s.status) ∧
  (∀ a, m.mem a = false → t.readMem a = s.readMem a) ∧
  (m.display = false → ∀ k, bufByte t.fb k = bufByte s.fb k) ∧
  (m.ports = false → t.ports = s.ports) ∧
  t.ports.requests = s.ports.requests ∧
  t.config = s.config

/-- The `len` addresses from `I` upward, the range of a data access (rules R56, R57). -/
def State.dataRange (s : State) (len : Nat) (a : Nat) : Bool :=
  decide (s.index.toNat ≤ a) && decide (a < s.index.toNat + len)

/-- The decimal digits of `V[x]`, hundreds first (rule R154). -/
def State.digitsOf (s : State) (x : Reg) : List Byte :=
  [BitVec.ofNat 8 ((s.reg x).toNat / 100), BitVec.ofNat 8 ((s.reg x).toNat / 10 % 10),
    BitVec.ofNat 8 ((s.reg x).toNat % 10)]

/-- `V[0]` to `V[x]` (rule R156). -/
def State.regsUpTo (s : State) (x : Reg) : List Byte :=
  (List.range (x.toNat + 1)).map fun r => s.reg (BitVec.ofNat 4 r)

/-- The byte address `a` holds once `bs` has been stored from `I` upward (rules R57, R65). -/
def State.byteAfterStore (s : State) (bs : List Byte) (a : Nat) : Byte :=
  if s.dataRange bs.length a then bs.getD (a - s.index.toNat) 0 else s.readMem a

/-- What each instruction may change in its execute part, the "written by" column of rule R40. `pc` and `status` of
the instructions that can fault are among it (rule R212). -/
def touches (i : Instr) (s : State) : Touched :=
  match i with
  | .sys _ | .undef _ => {}
  | .jp _ | .jpV0 _ | .seImm _ _ | .sneImm _ _ | .seReg _ _ | .sneReg _ _ => { pc := true }
  | .ret => { pc := true, sp := true, status := true }
  | .call _ => { pc := true, sp := true, entries := fun j => j == s.sp.val, status := true }
  | .ldImm x _ | .addImm x _ | .ldReg x _ | .orReg x _ | .andReg x _ | .xorReg x _ => { regs := fun r => r == x }
  | .addReg x _ | .subReg x _ | .shr x _ | .subnReg x _ | .shl x _ => { regs := fun r => r == x || r == VF }
  | .rnd x _ => { regs := fun r => r == x, ports := true }
  | .ldI _ | .addI _ | .ldFont _ => { index := true }
  | .storeBcd _ => { mem := s.dataRange 3, pc := true, status := true }
  | .storeRegs x => { mem := s.dataRange (x.toNat + 1), pc := true, status := true }
  | .loadRegs x => { regs := fun r => decide (r.toNat ≤ x.toNat), pc := true, status := true }
  | .cls => { display := true }
  | .drw _ _ _ => { regs := fun r => r == VF, display := true, pc := true, status := true }
  | .skp _ | .sknp _ => { pc := true, ports := true }
  | .ldVxK x => { regs := fun r => r == x, pc := true, ports := true }
  | .ldVxDt x => { regs := fun r => r == x }
  | .ldDtVx _ => { dt := true }
  | .ldStVx _ => { st := true }

/-- The pixels rule R171's loops visit, in their order: rows top to bottom, columns left to right, those whose sprite
bit is 1, each wrapped on both axes from the origin `(V[x] mod W, V[y] mod H)`. -/
def State.visited (s : State) (x y : Reg) (n : Nat) : List (Nat × Nat) :=
  (List.range n).flatMap fun r =>
    ((List.range 8).filter fun c => (s.readMem (s.index.toNat + r)).getLsbD (7 - c)).map fun c =>
      (((s.reg x).toNat % s.config.width + c) % s.config.width,
        ((s.reg y).toNat % s.config.height + r) % s.config.height)

/-- The state a fault raised in the execute part leaves, spelled out field by field: `pc` back at the instruction,
`status` holding the fault and that address, all else as it was (rule R212). -/
def State.faultedWith (s : State) (f : Fault) : State :=
  { s with pc := s.pc - 2, status := .faulted f (s.pc - 2) }

end Sys2Proof.Machine
end

