-- ==== Sys2Proof/WellFormed.lean ====
section
/-! DEFINITION. Well-formed instructions: those some word decodes to. Register numbers and immediates are bounded by
their types; what is left to check is that `sys` does not name a word of CLS or RET (`30_encoding.md` rule R88) and
that `undef` holds a word that matches no row (rule R86). -/

namespace Sys2Proof

/-- Well-formedness, constructor by constructor. -/
def Instr.wellFormed : Instr → Bool
  | .sys nnn => nnn != 0x0E0 && nnn != 0x0EE
  | .undef w => undefinedWord w
  | .cls | .ret | .jp _ | .call _ | .seImm _ _ | .sneImm _ _ | .seReg _ _ | .ldImm _ _ | .addImm _ _ => true
  | .ldReg _ _ | .orReg _ _ | .andReg _ _ | .xorReg _ _ | .addReg _ _ | .subReg _ _ | .shr _ _ => true
  | .subnReg _ _ | .shl _ _ | .sneReg _ _ | .ldI _ | .jpV0 _ | .rnd _ _ | .drw _ _ _ | .skp _ | .sknp _ => true
  | .ldVxDt _ | .ldVxK _ | .ldDtVx _ | .ldStVx _ | .addI _ | .ldFont _ | .storeBcd _ | .storeRegs _ => true
  | .loadRegs _ => true

end Sys2Proof
end

