-- ==== Sys2Proof/Certificates/Slice0/Obligations.lean ====
section
/-! DEFINITION. The statements about the machine, each from the numbered rules of spec/ its docstring names. A
statement about the execute part of an instruction has `pc` at `a + 2` already (`40_control_flow.md` rule R100). -/

open Sys2Proof Sys2Proof.Machine

/-! ### Encoding and decoding -/

/-- Rules R81, R85: no bit of an encoding is dropped, for every well-formed instruction and every operand. -/
def Obligations.DecodeOfEncode : Prop :=
  ∀ i : Instr, i.wellFormed = true → decode (encode i) = i

/-- Rules R81, R85, R86: every one of the 65536 words decodes to a well-formed instruction that encodes to it. -/
def Obligations.EncodeOfDecode : Prop :=
  ∀ w : Word, encode (decode w) = w ∧ (decode w).wellFormed = true

/-- Rules R84, R85, R86: the decoder's nested dispatch picks the first row of the mask and match table a word selects,
and `UNDEF` exactly where no row is selected. -/
def Obligations.DecodeFollowsOpcodeMap : Prop :=
  ∀ w : Word, (decode w).mnemonic = (match rowOf w with | some r => r.mnemonic | none => "UNDEF")

/-- Rules R53, R80: two bytes, the high one at the lower address; what follows is untouched. That fewer than two bytes
are rejected as truncated, and that `decodeTableWord` reads a table number of 16 bits as that word, is the model's own
choice (assumption 23). -/
def Obligations.BytesDecodeBigEndian : Prop :=
  (∀ w : Word, (wordBytes w).map BitVec.toNat = [w.toNat / 256, w.toNat % 256]) ∧
  (∀ (i : Instr) (rest : List Byte), i.wellFormed = true →
    decodeBytes (wordBytes (encode i) ++ rest) = .ok (i, rest)) ∧
  (∀ bs : List Byte, bs.length < 2 → decodeBytes bs = .error .truncated) ∧
  (∀ w : Word, decodeTableWord 16 w.toNat = some (decode w))

/-- Rules R82, R85: words written out from the patterns decode to the instructions they stand for. The last one, of
the form `5xyN`, is undefined by rules R86, R87, the spec's decision D7 (assumption 13). -/
def Obligations.SampleWordsDecode : Prop :=
  decode 0x00E0 = .cls ∧ decode 0x00EE = .ret ∧ decode 0x1234 = .jp 0x234 ∧ decode 0x6A05 = .ldImm 0xA 0x05 ∧
  decode 0x8AB4 = .addReg 0xA 0xB ∧ decode 0xA20A = .ldI 0x20A ∧ decode 0xDAB1 = .drw 0xA 0xB 0x1 ∧
  decode 0xE19E = .skp 0x1 ∧ decode 0xF30A = .ldVxK 0x3 ∧ decode 0x5121 = .undef 0x5121

/-! ### The cycle -/

/-- Rule R100: when the bytes at `pc` decode to `i`, a STEP is `exec i` with `pc` advanced by 2; a STEP the outside
requests is that STEP with the request taken off the list. -/
def Obligations.StepRunsDecodedInstruction : Prop :=
  ∀ (s : State) (i : Instr), s.status = .running → s.pc.toNat + 1 < 4096 →
    decode (s.readMem s.pc.toNat ++ s.readMem (s.pc.toNat + 1)) = i →
    (s.ports.requests = [] → step s = exec i { s with pc := s.pc + 2 }) ∧
    (∀ rest, s.ports.requests = .step :: rest →
      step s = exec i { s with pc := s.pc + 2, ports := { s.ports with requests := rest } })

/-- Rules R55, R214, the spec's decision D4: a STEP with `pc + 1 >= 4096`, requested or not, raises
FetchOutOfBounds(pc) and changes nothing else. -/
def Obligations.FetchPastEndFaults : Prop :=
  ∀ s : State, s.status = .running → 4096 ≤ s.pc.toNat + 1 →
    (s.ports.requests = [] →
      step s = .next { s with status := .faulted (.fetchOutOfBounds s.pc.toNat) s.pc }) ∧
    (∀ rest, s.ports.requests = .step :: rest →
      step s = .next { s.setRequests rest with status := .faulted (.fetchOutOfBounds s.pc.toNat) s.pc })

/-- Rule R12: the oldest request is the operation performed, and it is performed once. The list of requests is the
model's own way to say which operation comes next (assumption 2). -/
def Obligations.RequestsRunInOrder : Prop :=
  ∀ (s : State) (rest : List Op),
    (s.ports.requests = .tick :: rest → step s = .next (tick (s.setRequests rest))) ∧
    (s.ports.requests = .reset :: rest → step s = .next (State.construct s.config { s.ports with requests := rest })) ∧
    (∀ rom, s.ports.requests = .load rom :: rest →
      (∀ t, load rom (s.setRequests rest) = .ok t → step s = .next t) ∧
      (∀ e, load rom (s.setRequests rest) = .error e → step s = .next (s.setRequests rest))) ∧
    (s.ports.requests = .step :: rest → step s = stepCpu (s.setRequests rest)) ∧
    (s.ports.requests = [] → step s = stepCpu s)

/-- Rule R266: every operation returns: in any state whatever a step answers a next state and is never refused. That a
STEP which faults answers a next state and not the host's fault is the model's choice (assumption 1); a STEP of a
faulted machine, which U19 calls stuck, answers the state it was in. -/
def Obligations.StepAlwaysAnswers : Prop :=
  (∀ s : State, ∃ t, step s = .next t) ∧ (∀ (i : Instr) (s : State), ∃ t, exec i s = .next t)

/-- Rule R24: how each instruction leaves `pc`. That a fault leaves it at `a` is the spec's decision D3; that a STEP comes
by request or for want of one is the model's choice (assumption 2). -/
def Obligations.PcAfterStep : Prop :=
  ∀ s t : State, s.status = .running → s.StepNext → step s = .next t →
    (t.status ≠ .running → t.pc = s.pc) ∧
    (t.status = .running → t.pc.toNat =
      (match decode (s.readMem s.pc.toNat ++ s.readMem (s.pc.toNat + 1)) with
       | .jp nnn => nnn.toNat
       | .call nnn => nnn.toNat
       | .jpV0 nnn => nnn.toNat + (s.reg 0).toNat
       | .ret => (s.stack.toList.getD (s.sp.val - 1) 0).toNat
       | .seImm x kk => if s.reg x = kk then s.pc.toNat + 4 else s.pc.toNat + 2
       | .sneImm x kk => if s.reg x = kk then s.pc.toNat + 2 else s.pc.toNat + 4
       | .seReg x y => if s.reg x = s.reg y then s.pc.toNat + 4 else s.pc.toNat + 2
       | .sneReg x y => if s.reg x = s.reg y then s.pc.toNat + 2 else s.pc.toNat + 4
       | .skp x => if keyPressed s.config s.sampleKeys.1 (s.reg x) then s.pc.toNat + 4 else s.pc.toNat + 2
       | .sknp x => if keyPressed s.config s.sampleKeys.1 (s.reg x) then s.pc.toNat + 2 else s.pc.toNat + 4
       | .ldVxK _ => if (anyPressed s.config s.sampleKeys.1).isSome then s.pc.toNat + 2 else s.pc.toNat
       | _ => s.pc.toNat + 2))

/-! ### Faults -/

/-- Rule R212, the spec's decision D3: a fault discards every write of its STEP, so the state is exactly the one before
it but for `status`, which records the fault and the address of the instruction, and for the request the STEP was. -/
def Obligations.FaultsArePrecise : Prop :=
  ∀ s t : State, s.status = .running → s.StepNext → step s = .next t → t.status ≠ .running →
    ∃ f, t = { s.setRequests s.ports.requests.tail with status := .faulted f s.pc }

/-- Rules R210, R268: a STEP of a running machine ends without a fault exactly when the instruction can be fetched and
its own condition holds. The conditions are the spec's decisions D4 to D6; that a STEP comes by request or for want of
one is the model's choice (assumption 2). -/
def Obligations.StepFaultsExactlyWhen : Prop :=
  ∀ s t : State, s.status = .running → s.StepNext → step s = .next t →
    (t.status = .running ↔ s.pc.toNat + 1 < 4096 ∧
      (match decode (s.readMem s.pc.toNat ++ s.readMem (s.pc.toNat + 1)) with
       | .call _ => s.sp.val ≠ 16
       | .ret => s.sp.val ≠ 0
       | .storeBcd _ => s.index.toNat + 2 < 4096
       | .storeRegs x => s.index.toNat + x.toNat < 4096
       | .loadRegs x => s.index.toNat + x.toNat < 4096
       | .drw _ _ n => n = 0 ∨ s.index.toNat + n.toNat - 1 < 4096
       | _ => True))

/-- Rule R213, the spec's decisions D3 and D34: while faulted a STEP, requested or not, changes nothing, and no
operation but RESET clears `status`. -/
def Obligations.FaultsAreSticky : Prop :=
  ∀ (s : State) (f : Fault) (a : Word), s.status = .faulted f a →
    (s.ports.requests = [] → step s = .next s) ∧
    (∀ rest, s.ports.requests = .step :: rest → step s = .next (s.setRequests rest)) ∧
    (tick s).status = .faulted f a ∧
    (∀ rom, (performLoad rom s).status = .faulted f a) ∧
    (performReset s).status = .running ∧
    (∀ t, (∀ rest, s.ports.requests ≠ .reset :: rest) → step s = .next t → t.status = .faulted f a)

/-! ### Rules about the whole machine -/

/-- Rule R40, the "written by" column: what each of the 36 instructions leaves unchanged. -/
def Obligations.ExecFrame : Prop :=
  ∀ (i : Instr) (s t : State), exec i s = .next t → Frame (touches i s) s t

/-- Rules R38, R231, R233: the input ports reach a program through `Ex9E`, `ExA1`, `Fx0A` and `Cxkk` alone: every
other instruction does the same whatever the ports hold, and leaves them alone. -/
def Obligations.InputsReachOnlyFourInstructions : Prop :=
  ∀ (i : Instr) (s t : State) (p : Ports), exec i s = .next t →
    (∀ x kk, i ≠ .rnd x kk) → (∀ x, i ≠ .skp x) → (∀ x, i ≠ .sknp x) → (∀ x, i ≠ .ldVxK x) →
    exec i { s with ports := p } = .next { t with ports := p }

/-- Rules R28, R29, R34: no instruction reads `TONE`, none reads `ST`, and none but the two display instructions reads
or writes the Display. -/
def Obligations.OutputsAreNeverRead : Prop :=
  ∀ (i : Instr) (s t : State), exec i s = .next t →
    (∀ b, exec i { s with tone := b } = .next { t with tone := b }) ∧
    ((∀ x, i ≠ .ldStVx x) → ∀ b, exec i { s with st := b } = .next { t with st := b }) ∧
    (i ≠ .cls → (∀ x y n, i ≠ .drw x y n) → ∀ buf, exec i { s with fb := buf } = .next { t with fb := buf })

/-- Rules R31, R35, R36: every step, whatever operation it performs, keeps the storage invariant: memory and packed
buffer in canonical form inside their ranges, every padding bit 0, the parameters in their bounds. -/
def Obligations.StepKeepsStorageInvariant : Prop :=
  ∀ s t : State, s.Inv → step s = .next t → t.Inv

/-- Rule R25: no step takes `pc` above 0x10FE, nor a stack entry above 0x1000. -/
def Obligations.StepKeepsPcBound : Prop :=
  ∀ s t : State, s.PcBound → step s = .next t → t.PcBound

/-- Rule R7: no instruction and no operation changes the display's dimensions or another parameter. -/
def Obligations.StepKeepsParameters : Prop :=
  ∀ s t : State, step s = .next t → t.config = s.config

/-- Rules R44, R25, R36: a machine constructed with parameters in their bounds meets both invariants, and so does the
canonical machine. -/
def Obligations.ResetMeetsInvariants : Prop :=
  (∀ (c : Config) (p : Ports), configWf c = true →
    (State.construct c p).Inv ∧ (State.construct c p).PcBound) ∧
  configWf State.reset.config = true ∧ State.reset.Inv ∧ State.reset.PcBound

/-- Rule R44: the state after RESET, piece by piece, from any state. `TONE = 0` is the spec's decision D13, `I = 0` and
the zero stack entries its decision D30. -/
def Obligations.ResetState : Prop :=
  ∀ s : State,
    (∀ r, (performReset s).reg r = 0) ∧ (performReset s).index = 0 ∧ (performReset s).pc = 0x200 ∧
    (∀ j : Fin 16, (performReset s).stack[j] = 0) ∧ (performReset s).sp = 0 ∧
    (performReset s).dt = 0 ∧ (performReset s).st = 0 ∧ (performReset s).tone = false ∧
    (performReset s).status = .running ∧
    (∀ a, a < 0x50 → (performReset s).readMem a = s.config.font.getD a 0) ∧
    (∀ a, 0x50 ≤ a → (performReset s).readMem a = 0) ∧
    (∀ px py, (performReset s).getPixel px py = false) ∧ (∀ k, bufByte (performReset s).fb k = 0) ∧
    (performReset s).config = s.config ∧
    State.reset = State.construct Config.canonical Ports.initial

/-! ### Control flow -/

/-- Rule R101. -/
def Obligations.SysIsNoOp : Prop :=
  (∀ nnn : Addr12, nnn ≠ 0x0E0 → nnn ≠ 0x0EE → decode (0x0#4 ++ nnn) = .sys nnn) ∧
  (∀ (nnn : Addr12) (s : State), exec (.sys nnn) s = .next s)

/-- Rules R86, R87: the undefined words are exactly those of the table of rule R86, and each only advances `pc`. -/
def Obligations.UndefinedWordsAreNoOps : Prop :=
  (∀ w : Word, decode w = .undef w ↔
    (w.toNat / 4096 = 5 ∧ w.toNat % 16 ≠ 0) ∨
    (w.toNat / 4096 = 8 ∧ w.toNat % 16 ∈ [8, 9, 0xA, 0xB, 0xC, 0xD, 0xF]) ∨
    (w.toNat / 4096 = 9 ∧ w.toNat % 16 ≠ 0) ∨
    (w.toNat / 4096 = 0xE ∧ w.toNat % 256 ∉ [0x9E, 0xA1]) ∨
    (w.toNat / 4096 = 0xF ∧ w.toNat % 256 ∉ [0x07, 0x0A, 0x15, 0x18, 0x1E, 0x29, 0x33, 0x55, 0x65])) ∧
  (∀ (w : Word) (s : State), exec (.undef w) s = .next s) ∧
  (∀ s : State, s.Ready → s.pc.toNat + 1 < 4096 →
    decode (s.readMem s.pc.toNat ++ s.readMem (s.pc.toNat + 1)) =
      .undef (s.readMem s.pc.toNat ++ s.readMem (s.pc.toNat + 1)) →
    step s = .next { s with pc := s.pc + 2 })

/-- Rule R102; that an empty stack faults is the spec's decision D5. -/
def Obligations.ReturnPopsPc : Prop :=
  decode 0x00EE = .ret ∧
  (∀ (s : State) (j : Fin 16), s.sp.val = j.val + 1 →
    ∃ t, exec .ret s = .next t ∧ t.pc = s.stack[j] ∧ t.sp.val = j.val ∧ Frame { pc := true, sp := true } s t) ∧
  (∀ s : State, s.sp.val = 0 → exec .ret s = .next (s.faultedWith .stackUnderflow))

/-- Rule R103; that the fetch after a jump to 0xFFF faults is rule R55, the spec's decision D4. -/
def Obligations.JumpSetsPc : Prop :=
  (∀ nnn : Addr12, decode (0x1#4 ++ nnn) = .jp nnn) ∧
  (∀ (nnn : Addr12) (s : State), ∃ t, exec (.jp nnn) s = .next t ∧ t.pc.toNat = nnn.toNat ∧
    Frame { pc := true } s t) ∧
  (∀ s t : State, s.Ready → exec (.jp 0xFFF) s = .next t →
    step t = .next { t with status := .faulted (.fetchOutOfBounds 0xFFF) 0xFFF })

/-- Rule R108; that a full stack faults is the spec's decision D5. -/
def Obligations.CallPushesPc : Prop :=
  (∀ nnn : Addr12, decode (0x2#4 ++ nnn) = .call nnn) ∧
  (∀ (nnn : Addr12) (s : State) (j : Fin 16), s.sp.val = j.val →
    ∃ t, exec (.call nnn) s = .next t ∧ t.stack[j] = s.pc ∧ t.sp.val = j.val + 1 ∧ t.pc.toNat = nnn.toNat ∧
      Frame { pc := true, sp := true, entries := fun k => k == j.val } s t) ∧
  (∀ (nnn : Addr12) (s : State), s.sp.val = 16 → exec (.call nnn) s = .next (s.faultedWith .stackOverflow))

/-- Rule R108, its corner case: a `2nnn` and `00EE` pair restores `pc` to the instruction after the call, wherever the
callee has taken `pc` meanwhile. -/
def Obligations.CallThenReturn : Prop :=
  ∀ (nnn : Addr12) (s : State) (pc' : Word), s.sp.val < 16 →
    ∃ t u, exec (.call nnn) s = .next t ∧ exec .ret { t with pc := pc' } = .next u ∧
      u.pc = s.pc ∧ u.sp = s.sp ∧ Frame { entries := fun k => k == s.sp.val } s u

/-- Rules R104, R105; that the fetch after a skip from 0xFFC or above faults is rule R55, the spec's decision D4. -/
def Obligations.SkipOnImmediate : Prop :=
  (∀ (x : Reg) (kk : Byte), decode ((0x3#4 ++ x) ++ kk) = .seImm x kk ∧ decode ((0x4#4 ++ x) ++ kk) = .sneImm x kk) ∧
  (∀ (x : Reg) (kk : Byte) (s : State), ∃ t, exec (.seImm x kk) s = .next t ∧
    t.pc = (if s.reg x = kk then s.pc + 2 else s.pc) ∧ Frame { pc := true } s t) ∧
  (∀ (x : Reg) (kk : Byte) (s : State), ∃ t, exec (.sneImm x kk) s = .next t ∧
    t.pc = (if s.reg x = kk then s.pc else s.pc + 2) ∧ Frame { pc := true } s t) ∧
  (∀ (x : Reg) (kk : Byte) (s t : State), s.Ready → 0xFFE ≤ s.pc.toNat → s.pc.toNat ≤ 0x1000 →
    (s.reg x = kk ∧ exec (.seImm x kk) s = .next t ∨ s.reg x ≠ kk ∧ exec (.sneImm x kk) s = .next t) →
    step t = .next { t with status := .faulted (.fetchOutOfBounds (s.pc.toNat + 2)) (s.pc + 2) })

/-- Rules R106, R107; that `5xyN` and `9xyN` with another last digit are not these instructions is the spec's decision
D7. -/
def Obligations.SkipOnRegisters : Prop :=
  (∀ x y : Reg, decode (((0x5#4 ++ x) ++ y) ++ 0x0#4) = .seReg x y ∧
    decode (((0x9#4 ++ x) ++ y) ++ 0x0#4) = .sneReg x y) ∧
  (∀ (x y : Reg) (n : Nibble), n ≠ 0 →
    decode (((0x5#4 ++ x) ++ y) ++ n) = .undef (((0x5#4 ++ x) ++ y) ++ n) ∧
    decode (((0x9#4 ++ x) ++ y) ++ n) = .undef (((0x9#4 ++ x) ++ y) ++ n)) ∧
  (∀ (x y : Reg) (s : State), ∃ t, exec (.seReg x y) s = .next t ∧
    t.pc = (if s.reg x = s.reg y then s.pc + 2 else s.pc) ∧ Frame { pc := true } s t) ∧
  (∀ (x y : Reg) (s : State), ∃ t, exec (.sneReg x y) s = .next t ∧
    t.pc = (if s.reg x = s.reg y then s.pc else s.pc + 2) ∧ Frame { pc := true } s t)

/-- Rule R109; that the fetch after a jump to 0xFFF or above faults is rule R55, the spec's decision D4. -/
def Obligations.JumpPlusV0 : Prop :=
  (∀ nnn : Addr12, decode (0xB#4 ++ nnn) = .jpV0 nnn) ∧
  (∀ (nnn : Addr12) (s : State), ∃ t, exec (.jpV0 nnn) s = .next t ∧ t.pc.toNat = nnn.toNat + (s.reg 0).toNat ∧
    Frame { pc := true } s t) ∧
  (∀ (nnn : Addr12) (s t : State), s.Ready → exec (.jpV0 nnn) s = .next t → 0xFFF ≤ nnn.toNat + (s.reg 0).toNat →
    step t = .next { t with status := .faulted (.fetchOutOfBounds (nnn.toNat + (s.reg 0).toNat)) t.pc })

/-! ### Register instructions -/

/-- Rules R121, R123. -/
def Obligations.LoadRegister : Prop :=
  (∀ (x : Reg) (kk : Byte), decode ((0x6#4 ++ x) ++ kk) = .ldImm x kk) ∧
  (∀ x y : Reg, decode (((0x8#4 ++ x) ++ y) ++ 0x0#4) = .ldReg x y) ∧
  (∀ (x : Reg) (kk : Byte) (s : State), ∃ t, exec (.ldImm x kk) s = .next t ∧ t.reg x = kk ∧
    Frame { regs := fun r => r == x } s t) ∧
  (∀ (x y : Reg) (s : State), ∃ t, exec (.ldReg x y) s = .next t ∧ t.reg x = s.reg y ∧
    Frame { regs := fun r => r == x } s t)

/-- Rule R122. -/
def Obligations.AddImmediate : Prop :=
  (∀ (x : Reg) (kk : Byte), decode ((0x7#4 ++ x) ++ kk) = .addImm x kk) ∧
  (∀ (x : Reg) (kk : Byte) (s : State), ∃ t, exec (.addImm x kk) s = .next t ∧
    (t.reg x).toNat = ((s.reg x).toNat + kk.toNat) % 256 ∧ Frame { regs := fun r => r == x } s t)

/-- Rules R124, R125, R126: bit by bit, and `VF` written only where it is the destination. -/
def Obligations.LogicBitByBit : Prop :=
  (∀ x y : Reg, decode (((0x8#4 ++ x) ++ y) ++ 0x1#4) = .orReg x y ∧
    decode (((0x8#4 ++ x) ++ y) ++ 0x2#4) = .andReg x y ∧ decode (((0x8#4 ++ x) ++ y) ++ 0x3#4) = .xorReg x y) ∧
  (∀ (x y : Reg) (s : State), ∃ t, exec (.orReg x y) s = .next t ∧
    (∀ j, (t.reg x).getLsbD j = ((s.reg x).getLsbD j || (s.reg y).getLsbD j)) ∧
    Frame { regs := fun r => r == x } s t) ∧
  (∀ (x y : Reg) (s : State), ∃ t, exec (.andReg x y) s = .next t ∧
    (∀ j, (t.reg x).getLsbD j = ((s.reg x).getLsbD j && (s.reg y).getLsbD j)) ∧
    Frame { regs := fun r => r == x } s t) ∧
  (∀ (x y : Reg) (s : State), ∃ t, exec (.xorReg x y) s = .next t ∧
    (∀ j, (t.reg x).getLsbD j = ((s.reg x).getLsbD j ^^ (s.reg y).getLsbD j)) ∧
    Frame { regs := fun r => r == x } s t)

/-- Rule R127, with the forms where `x` or `y` is `VF`: the sum is taken before any write and the write of `V[x]` is
the last. -/
def Obligations.AddWithCarry : Prop :=
  (∀ x y : Reg, decode (((0x8#4 ++ x) ++ y) ++ 0x4#4) = .addReg x y) ∧
  (∀ (x y : Reg) (s : State), ∃ t, exec (.addReg x y) s = .next t ∧
    (t.reg x).toNat = ((s.reg x).toNat + (s.reg y).toNat) % 256 ∧
    (x ≠ VF → t.reg VF = if 255 < (s.reg x).toNat + (s.reg y).toNat then 1 else 0) ∧
    Frame { regs := fun r => r == x || r == VF } s t)

/-- Rules R128, R134, every form: the flag is strict; that the subtraction reads the new flag where `x` or `y` is `VF`
is the spec's decision D8. -/
def Obligations.SubtractWithFlag : Prop :=
  (∀ x y : Reg, decode (((0x8#4 ++ x) ++ y) ++ 0x5#4) = .subReg x y) ∧
  (∀ (x y : Reg) (s : State) (f : Nat), f = (if (s.reg y).toNat < (s.reg x).toNat then 1 else 0) →
    ∃ t, exec (.subReg x y) s = .next t ∧
      (x ≠ VF → (t.reg VF).toNat = f) ∧
      (x ≠ VF → y ≠ VF → (t.reg x).toNat = ((s.reg x).toNat + 256 - (s.reg y).toNat) % 256) ∧
      (x ≠ VF → y = VF → (t.reg x).toNat = ((s.reg x).toNat + 256 - f) % 256) ∧
      (x = VF → y ≠ VF → (t.reg VF).toNat = (f + 256 - (s.reg y).toNat) % 256) ∧
      (x = VF → y = VF → t.reg VF = 0) ∧
      Frame { regs := fun r => r == x || r == VF } s t)

/-- Rules R130, R134, every form, as rule R128 with the operands exchanged (decision D8). -/
def Obligations.SubtractReversedWithFlag : Prop :=
  (∀ x y : Reg, decode (((0x8#4 ++ x) ++ y) ++ 0x7#4) = .subnReg x y) ∧
  (∀ (x y : Reg) (s : State) (f : Nat), f = (if (s.reg x).toNat < (s.reg y).toNat then 1 else 0) →
    ∃ t, exec (.subnReg x y) s = .next t ∧
      (x ≠ VF → (t.reg VF).toNat = f) ∧
      (x ≠ VF → y ≠ VF → (t.reg x).toNat = ((s.reg y).toNat + 256 - (s.reg x).toNat) % 256) ∧
      (x ≠ VF → y = VF → (t.reg x).toNat = (f + 256 - (s.reg x).toNat) % 256) ∧
      (x = VF → y ≠ VF → (t.reg VF).toNat = ((s.reg y).toNat + 256 - f) % 256) ∧
      (x = VF → y = VF → t.reg VF = 0) ∧
      Frame { regs := fun r => r == x || r == VF } s t)

/-- Rules R129, R134: `y` is neither read nor written; that `8Fy6` leaves 0 is the spec's decision D8. -/
def Obligations.ShiftRight : Prop :=
  (∀ x y : Reg, decode (((0x8#4 ++ x) ++ y) ++ 0x6#4) = .shr x y) ∧
  (∀ (x y : Reg) (s : State), ∃ t, exec (.shr x y) s = .next t ∧
    (x ≠ VF → (t.reg VF).toNat = (s.reg x).toNat % 2 ∧ (t.reg x).toNat = (s.reg x).toNat / 2) ∧
    (x = VF → t.reg VF = 0) ∧ Frame { regs := fun r => r == x || r == VF } s t)

/-- Rules R131, R134: `y` is neither read nor written; that `8FyE` leaves 2 or 0 is the spec's decision D8. -/
def Obligations.ShiftLeft : Prop :=
  (∀ x y : Reg, decode (((0x8#4 ++ x) ++ y) ++ 0xE#4) = .shl x y) ∧
  (∀ (x y : Reg) (s : State), ∃ t, exec (.shl x y) s = .next t ∧
    (x ≠ VF → (t.reg VF).toNat = (s.reg x).toNat / 128 ∧ (t.reg x).toNat = 2 * (s.reg x).toNat % 256) ∧
    (x = VF → (t.reg VF).toNat = 2 * ((s.reg VF).toNat / 128)) ∧
    Frame { regs := fun r => r == x || r == VF } s t)

/-- Rules R132, R233, for whatever byte the port delivers (decision D12: a free input): one byte is taken, and
`RandDelivered` says which. The scripted bytes and the free ones behind them are the model's (assumption 4). -/
def Obligations.RandomMasked : Prop :=
  (∀ (x : Reg) (kk : Byte), decode ((0xC#4 ++ x) ++ kk) = .rnd x kk) ∧
  (∀ s : State, RandDelivered s.ports s.drawRand.1 s.drawRand.2.ports) ∧
  (∀ (x : Reg) (kk : Byte) (s : State) (r : Byte) (q : Ports), RandDelivered s.ports r q →
    ∃ t, exec (.rnd x kk) s = .next t ∧ (∀ j, (t.reg x).getLsbD j = (r.getLsbD j && kk.getLsbD j)) ∧
      t.ports = q ∧ Frame { regs := fun r => r == x, ports := true } s t)

/-! ### Index register and memory -/

/-- Rule R151. -/
def Obligations.LoadIndex : Prop :=
  (∀ nnn : Addr12, decode (0xA#4 ++ nnn) = .ldI nnn) ∧
  (∀ (nnn : Addr12) (s : State), ∃ t, exec (.ldI nnn) s = .next t ∧ t.index.toNat = nnn.toNat ∧
    Frame { index := true } s t)

/-- Rules R152, R153; the wrap of `Fx1E` at 16 bits is the spec's decision D32, that `Fx29` masks nothing its decision
D27. -/
def Obligations.IndexArithmetic : Prop :=
  (∀ x : Reg, decode ((0xF#4 ++ x) ++ 0x1E#8) = .addI x ∧ decode ((0xF#4 ++ x) ++ 0x29#8) = .ldFont x) ∧
  (∀ (x : Reg) (s : State), ∃ t, exec (.addI x) s = .next t ∧
    t.index.toNat = (s.index.toNat + (s.reg x).toNat) % 65536 ∧ Frame { index := true } s t) ∧
  (∀ (x : Reg) (s : State), ∃ t, exec (.ldFont x) s = .next t ∧ t.index.toNat = 5 * (s.reg x).toNat ∧
    Frame { index := true } s t)

/-- Rule R154; the fault is the spec's decision D6, the unchanged `I` its decision D17. The canonical form of memory is
the model's own premise (assumption 21). -/
def Obligations.StoreDecimalDigits : Prop :=
  (∀ x : Reg, decode ((0xF#4 ++ x) ++ 0x33#8) = .storeBcd x) ∧
  (∀ (x : Reg) (s : State), Memory.wf s.config s.mem = true → s.index.toNat + 2 < 4096 →
    ∃ t, exec (.storeBcd x) s = .next t ∧
      (t.readMem s.index.toNat).toNat = (s.reg x).toNat / 100 ∧
      (t.readMem (s.index.toNat + 1)).toNat = (s.reg x).toNat / 10 % 10 ∧
      (t.readMem (s.index.toNat + 2)).toNat = (s.reg x).toNat % 10 ∧ Frame { mem := s.dataRange 3 } s t) ∧
  (∀ (x : Reg) (s : State), 4096 ≤ s.index.toNat + 2 →
    exec (.storeBcd x) s = .next (s.faultedWith (.memoryOutOfBounds (max s.index.toNat 4096))))

/-- Rule R156; the fault is the spec's decision D6, the unchanged `I` its decision D17. The canonical form of memory is
the model's own premise (assumption 21). -/
def Obligations.StoreRegisterBlock : Prop :=
  (∀ x : Reg, decode ((0xF#4 ++ x) ++ 0x55#8) = .storeRegs x) ∧
  (∀ (x : Reg) (s : State), Memory.wf s.config s.mem = true → s.index.toNat + x.toNat < 4096 →
    ∃ t, exec (.storeRegs x) s = .next t ∧
      (∀ r : Reg, r.toNat ≤ x.toNat → t.readMem (s.index.toNat + r.toNat) = s.reg r) ∧
      Frame { mem := s.dataRange (x.toNat + 1) } s t) ∧
  (∀ (x : Reg) (s : State), 4096 ≤ s.index.toNat + x.toNat →
    exec (.storeRegs x) s = .next (s.faultedWith (.memoryOutOfBounds (max s.index.toNat 4096))))

/-- Rule R157; the fault is the spec's decision D6, the unchanged `I` its decision D17. -/
def Obligations.LoadRegisterBlock : Prop :=
  (∀ x : Reg, decode ((0xF#4 ++ x) ++ 0x65#8) = .loadRegs x) ∧
  (∀ (x : Reg) (s : State), s.index.toNat + x.toNat < 4096 →
    ∃ t, exec (.loadRegs x) s = .next t ∧
      (∀ r : Reg, r.toNat ≤ x.toNat → t.reg r = s.readMem (s.index.toNat + r.toNat)) ∧
      Frame { regs := fun r => decide (r.toNat ≤ x.toNat) } s t) ∧
  (∀ (x : Reg) (s : State), 4096 ≤ s.index.toNat + x.toNat →
    exec (.loadRegs x) s = .next (s.faultedWith (.memoryOutOfBounds (max s.index.toNat 4096))))

/-- Rules R65, R262: a store of `Fx33` or `Fx55` is seen by the very next fetch, whichever of the two bytes at `pc` it
covers: each byte fetched is the stored one where the store's range holds its address, else the old one. The canonical
form of memory is the model's own premise (assumption 21). -/
def Obligations.StoreSeenByNextFetch : Prop :=
  (∀ (s : State) (x : Reg), s.Ready → Memory.wf s.config s.mem = true → s.pc.toNat + 1 < 4096 →
    s.index.toNat + 2 < 4096 →
    ∃ t, exec (.storeBcd x) s = .next t ∧
      step t = exec (decode (s.byteAfterStore (s.digitsOf x) s.pc.toNat ++
        s.byteAfterStore (s.digitsOf x) (s.pc.toNat + 1))) { t with pc := s.pc + 2 }) ∧
  (∀ (s : State) (x : Reg), s.Ready → Memory.wf s.config s.mem = true → s.pc.toNat + 1 < 4096 →
    s.index.toNat + x.toNat < 4096 →
    ∃ t, exec (.storeRegs x) s = .next t ∧
      step t = exec (decode (s.byteAfterStore (s.regsUpTo x) s.pc.toNat ++
        s.byteAfterStore (s.regsUpTo x) (s.pc.toNat + 1))) { t with pc := s.pc + 2 })

/-! ### Display -/

/-- Rule R170. -/
def Obligations.ClearScreen : Prop :=
  decode 0x00E0 = .cls ∧
  (∀ s : State, ∃ t, exec .cls s = .next t ∧ (∀ px py, t.getPixel px py = false) ∧ (∀ k, bufByte t.fb k = 0) ∧
    Frame { display := true } s t)

/-- Rule R171, on a display of any size: each visit flips its pixel, so a pixel ends flipped when it was visited an
odd number of times; `VF` is 1 exactly when some visit finds its pixel on, the visits before it counted. The fault is the spec's decision D6, the origin read from the old
`VF` its decision D9, bit 7 as the leftmost column its decision D26. -/
def Obligations.DrawFlipsVisitedPixels : Prop :=
  (∀ (x y : Reg) (n : Nibble), decode (((0xD#4 ++ x) ++ y) ++ n) = .drw x y n) ∧
  (∀ (x y : Reg) (n : Nibble) (s : State), s.Inv → (n = 0 ∨ s.index.toNat + n.toNat - 1 < 4096) →
    ∃ t, exec (.drw x y n) s = .next t ∧
      (∀ px py, t.getPixel px py =
        (s.getPixel px py ^^ decide ((s.visited x y n.toNat).count (px, py) % 2 = 1))) ∧
      (t.reg VF = 0 ∨ t.reg VF = 1) ∧
      (t.reg VF = 1 ↔ ∃ (k : Nat) (p : Nat × Nat), (s.visited x y n.toNat)[k]? = some p ∧
        (s.getPixel p.1 p.2 ^^ decide (((s.visited x y n.toNat).take k).count p % 2 = 1)) = true) ∧
      Frame { regs := fun r => r == VF, display := true } s t) ∧
  (∀ (x y : Reg) (n : Nibble) (s : State), 0 < n.toNat → 4096 ≤ s.index.toNat + n.toNat - 1 →
    exec (.drw x y n) s = .next (s.faultedWith (.memoryOutOfBounds (max s.index.toNat 4096))))

/-- Rules R171, R172 (a), (g): on a display at least 8 wide and at least `n` high no pixel is visited twice, and the
drawing is the plain XOR of the sprite onto the picture, wrapped on both axes, `VF` telling whether a bit of 1 met a
pixel that was on. -/
def Obligations.DrawXorsSprite : Prop :=
  ∀ (x y : Reg) (n : Nibble) (s : State), s.Inv → 8 ≤ s.config.width → n.toNat ≤ s.config.height →
    (n = 0 ∨ s.index.toNat + n.toNat - 1 < 4096) →
    ∃ t, exec (.drw x y n) s = .next t ∧
      (∀ r c, r < n.toNat → c < 8 →
        t.getPixel (((s.reg x).toNat + c) % s.config.width) (((s.reg y).toNat + r) % s.config.height) =
          (s.getPixel (((s.reg x).toNat + c) % s.config.width) (((s.reg y).toNat + r) % s.config.height) ^^
            (s.readMem (s.index.toNat + r)).getLsbD (7 - c))) ∧
      (∀ px py, (∀ r c, r < n.toNat → c < 8 →
          ¬ (px = ((s.reg x).toNat + c) % s.config.width ∧ py = ((s.reg y).toNat + r) % s.config.height)) →
        t.getPixel px py = s.getPixel px py) ∧
      (t.reg VF = 0 ∨ t.reg VF = 1) ∧
      (t.reg VF = 1 ↔ ∃ r c, r < n.toNat ∧ c < 8 ∧ (s.readMem (s.index.toNat + r)).getLsbD (7 - c) = true ∧
        s.getPixel (((s.reg x).toNat + c) % s.config.width) (((s.reg y).toNat + r) % s.config.height) = true)

/-- Rules R177, R172 (h): the same sprite drawn twice at the same place leaves the packed buffer exactly as it was, on
a display of any size. -/
def Obligations.DrawTwiceRestores : Prop :=
  ∀ (x y : Reg) (n : Nibble) (s : State), s.Inv → x ≠ VF → y ≠ VF →
    (n = 0 ∨ s.index.toNat + n.toNat - 1 < 4096) →
    ∃ t u, exec (.drw x y n) s = .next t ∧ exec (.drw x y n) t = .next u ∧ u.fb = s.fb

/-- Rules R174, R175, R35: `set` then `get` round-trips at every coordinate, in range and out, the pixel being bit
`7 - px mod 8` of byte `py * ROW_BYTES + px div 8`, and `set` changes no other bit of the packed buffer. -/
def Obligations.SetThenGetPixel : Prop :=
  ∀ (c : Config) (buf : List Host.Cell) (px py : Nat) (on : Bool), bufferWf c buf = true →
    (∀ qx qy, getPixel c (setPixel c buf px py on) qx qy =
      if qx = px ∧ qy = py ∧ px < c.width ∧ py < c.height then on else getPixel c buf qx qy) ∧
    (c.width ≤ px ∨ c.height ≤ py → setPixel c buf px py on = buf ∧ getPixel c buf px py = false) ∧
    (px < c.width → py < c.height →
      getPixel c buf px py = (bufByte buf (py * ((c.width + 7) / 8) + px / 8)).getLsbD (7 - px % 8) ∧
      ∀ k j, (k ≠ py * ((c.width + 7) / 8) + px / 8 ∨ j ≠ 7 - px % 8) →
        (bufByte (setPixel c buf px py on) k).getLsbD j = (bufByte buf k).getLsbD j)

/-- Rules R176, R177: the controller's `draw` XORs the sprite with clipping on both axes (the horizontal one is the
spec's decision D28), and is its own inverse. -/
def Obligations.ClippedDrawXorsAndInverts : Prop :=
  ∀ (c : Config) (buf : List Host.Cell) (x0 y0 : Nat) (bytes : List Byte), bufferWf c buf = true →
    (∀ px py, getPixel c (drawClipped c buf x0 y0 bytes) px py =
      (getPixel c buf px py ^^
        (decide (px < c.width ∧ py < c.height ∧ x0 ≤ px ∧ px < x0 + 8 ∧ y0 ≤ py ∧ py < y0 + bytes.length) &&
          (bytes.getD (py - y0) 0).getLsbD (7 - (px - x0))))) ∧
    drawClipped c (drawClipped c buf x0 y0 bytes) x0 y0 bytes = buf

/-! ### Keys and timers -/

/-- Rules R190, R191, R231, for whatever sample of the key state the port delivers (decision D22): one sample is taken,
and `KeysDelivered` says which; the whole byte is the key number, and one outside the keyspace is not pressed (decision
D11). The scripted samples and the free ones behind them are the model's (assumption 3). -/
def Obligations.KeySkips : Prop :=
  (∀ x : Reg, decode ((0xE#4 ++ x) ++ 0x9E#8) = .skp x ∧ decode ((0xE#4 ++ x) ++ 0xA1#8) = .sknp x) ∧
  (∀ s : State, KeysDelivered s.ports s.sampleKeys.1 s.sampleKeys.2.ports) ∧
  (∀ (x : Reg) (s : State) (keys : BitVec 256) (q : Ports), KeysDelivered s.ports keys q →
    ∃ t, exec (.skp x) s = .next t ∧
      t.pc = (if (s.reg x).toNat < s.config.keyspace ∧ keys.getLsbD (s.reg x).toNat = true then s.pc + 2 else s.pc) ∧
      t.ports = q ∧ Frame { pc := true, ports := true } s t) ∧
  (∀ (x : Reg) (s : State) (keys : BitVec 256) (q : Ports), KeysDelivered s.ports keys q →
    ∃ t, exec (.sknp x) s = .next t ∧
      t.pc = (if (s.reg x).toNat < s.config.keyspace ∧ keys.getLsbD (s.reg x).toNat = true then s.pc else s.pc + 2) ∧
      t.ports = q ∧ Frame { pc := true, ports := true } s t)

/-- Rule R192: the lowest-numbered key that is down goes to `V[x]`; with none down `pc` goes back to the instruction
itself and no register changes. Each attempt takes one sample (rule R231, decision D22), and `KeysDelivered` says which
(assumption 3). -/
def Obligations.WaitForKey : Prop :=
  (∀ x : Reg, decode ((0xF#4 ++ x) ++ 0x0A#8) = .ldVxK x) ∧
  (∀ (x : Reg) (s : State) (keys : BitVec 256) (q : Ports), KeysDelivered s.ports keys q →
    (∀ j, j < s.config.keyspace → keys.getLsbD j = false) →
    ∃ t, exec (.ldVxK x) s = .next t ∧ t.pc = s.pc - 2 ∧ t.ports = q ∧
      Frame { pc := true, ports := true } s t) ∧
  (∀ (x : Reg) (s : State) (keys : BitVec 256) (q : Ports) (k : Nat), KeysDelivered s.ports keys q →
    k < s.config.keyspace → keys.getLsbD k = true → (∀ j, j < k → keys.getLsbD j = false) →
    ∃ t, exec (.ldVxK x) s = .next t ∧ (t.reg x).toNat = k ∧ t.ports = q ∧
      Frame { regs := fun r => r == x, ports := true } s t)

/-- Rules R193, R194, R195: what is read is what was last written less the TICKs since, and never below 0; `Fx18`
leaves `TONE` to the next TICK, and a written `v` sounds until the `v`-th TICK after it. -/
def Obligations.TimerInstructions : Prop :=
  (∀ x : Reg, decode ((0xF#4 ++ x) ++ 0x07#8) = .ldVxDt x ∧ decode ((0xF#4 ++ x) ++ 0x15#8) = .ldDtVx x ∧
    decode ((0xF#4 ++ x) ++ 0x18#8) = .ldStVx x) ∧
  (∀ (x : Reg) (s : State), ∃ t, exec (.ldVxDt x) s = .next t ∧ t.reg x = s.dt ∧
    Frame { regs := fun r => r == x } s t) ∧
  (∀ (x : Reg) (s : State), ∃ t, exec (.ldDtVx x) s = .next t ∧ t.dt = s.reg x ∧ Frame { dt := true } s t) ∧
  (∀ (x : Reg) (s : State), ∃ t, exec (.ldStVx x) s = .next t ∧ t.st = s.reg x ∧ Frame { st := true } s t) ∧
  (∀ (x y : Reg) (s : State) (j : Nat), ∃ t u, exec (.ldDtVx x) s = .next t ∧ exec (.ldVxDt y) (tick^[j] t) = .next u ∧
    (u.reg y).toNat = (s.reg x).toNat - j) ∧
  (∀ (x : Reg) (s : State) (j : Nat), 0 < j → ∃ t, exec (.ldStVx x) s = .next t ∧ t.tone = s.tone ∧
    ((tick^[j] t).tone = true ↔ j < (s.reg x).toNat))

/-! ### The operations of the outside -/

/-- Rule R224: one TICK, in any state (so also while faulted, rule R226, the spec's decision D25). -/
def Obligations.TickCountsDown : Prop :=
  ∀ s : State, (tick s).dt.toNat = s.dt.toNat - 1 ∧ (tick s).st.toNat = s.st.toNat - 1 ∧
    ((tick s).tone = true ↔ 0 < (tick s).st.toNat) ∧ Frame { dt := true, st := true, tone := true } s (tick s)

/-- Rule R225 (a), (d): after `j` TICKs a timer that held `v` holds `max(v - j, 0)`, and the tone is on exactly while
`ST` is above 0. -/
def Obligations.TicksReachZeroAndStay : Prop :=
  ∀ (s : State) (j : Nat), (tick^[j] s).dt.toNat = s.dt.toNat - j ∧ (tick^[j] s).st.toNat = s.st.toNat - j ∧
    (0 < j → ((tick^[j] s).tone = true ↔ j < s.st.toNat)) ∧
    Frame { dt := true, st := true, tone := true } s (tick^[j] s)

/-- Rules R255, R256, R257: LOAD writes its image and `pc` and nothing else; one above 3584 bytes fails and changes
nothing. That all other state persists is the spec's decision D15. The canonical form of memory is the model's own
premise (assumption 21). -/
def Obligations.LoadPlacesImage : Prop :=
  (∀ (rom : List Byte) (s : State), Memory.wf s.config s.mem = true → rom.length ≤ 3584 →
    ∃ t, load rom s = .ok t ∧ performLoad rom s = t ∧ t.pc = 0x200 ∧
      (∀ (j : Nat) (h : j < rom.length), t.readMem (0x200 + j) = rom[j]) ∧
      Frame { pc := true, mem := fun a => decide (0x200 ≤ a) && decide (a < 0x200 + rom.length) } s t) ∧
  (∀ (rom : List Byte) (s : State), 3584 < rom.length →
    load rom s = .error .romTooLarge ∧ performLoad rom s = s)

/-- Rule R251, derived by the spec itself: a reset machine with no program runs 1792 no-ops and faults at the 1793rd
STEP with `pc = 0x1000`, so a run of 1792 steps is safe and one of 1793 is not. That an empty list of requests means
STEP is the model's choice (assumption 2). -/
def Obligations.EmptyMachineIdlesThenFaults : Prop :=
  (∀ n : Nat, n ≤ 1792 →
    Host.Core.run core n State.reset = .next { State.reset with pc := BitVec.ofNat 16 (0x200 + 2 * n) }) ∧
  Host.Core.run core 1793 State.reset =
    .next { State.reset with pc := 0x1000, status := .faulted (.fetchOutOfBounds 0x1000) 0x1000 } ∧
  SafeRun 1792 State.reset ∧ ¬ SafeRun 1793 State.reset

/-- Rule R264, the spec's decision D29: at a jump to itself, the spec's convention for the end of a run, every later STEP leaves the state
unchanged. -/
def Obligations.SelfJumpIsFixedPoint : Prop :=
  ∀ s : State, s.Ready → s.atSelfJump = true →
    step s = .next s ∧ ∀ n, Host.Core.run core n s = .next s

/-- Rules R250, R256, R258: RESET, LOAD, then the first STEP runs the first two bytes of the image, whatever the machine
was. That the three come as a list of requests (assumption 2), and that RESET keeps the LOAD and the STEP still pending
(assumption 27), are the model's choices. -/
def Obligations.BootRunsFirstWord : Prop :=
  ∀ (s : State) (hi lo : Byte) (rest : List Byte) (ops : List Op), rest.length ≤ 3582 →
    s.ports.requests = .reset :: .load (hi :: lo :: rest) :: .step :: ops →
    ∃ t u, step s = .next t ∧ step t = .next u ∧
      step u = exec (decode (hi ++ lo)) { u with pc := 0x202, ports := { u.ports with requests := ops } }
end

