-- ==== Sys2Proof/Laws/Cells.lean ====
section
/-! SUPPORT. Reads, writes and the canonical form of the sparse byte storage that memory and the packed buffer share:
a read after a write, that a write keeps the form, and that two lists in the form that read alike are equal. -/

namespace Sys2Proof.Machine

variable {d : Nat → Byte} {hi : Nat}

/-- A write leaves every other address alone; no canonical form is needed. -/
theorem readCells_writeCells_ne (l : List Host.Cell) {a k : Nat} (b : Byte) (h : k ≠ a) :
    readCells d (writeCells d l a b) k = readCells d l k := by
  induction l with
  | nil => by_cases hb : b = d a <;> simp [writeCells, readCells, hb, h]
  | cons cell rest ih =>
    obtain ⟨j, c⟩ := cell
    simp only [writeCells]
    split
    · split <;> simp [readCells, h]
    · split
      · subst j; split <;> simp [readCells, h]
      · simp [readCells, ih]

/-- An address below every listed one reads as unlisted. -/
theorem readCells_of_lt {l : List Host.Cell} {lo a : Nat} (hw : cellsWf d hi lo l = true) (h : a < lo) :
    readCells d l a = d a := by
  induction l generalizing lo with
  | nil => rfl
  | cons cell rest ih =>
    obtain ⟨j, c⟩ := cell
    simp only [cellsWf, Bool.and_eq_true, decide_eq_true_eq] at hw
    have hne : a ≠ j := by omega
    simp only [readCells, if_neg hne]
    exact ih hw.2 (by omega)

/-- A read of the address just written gives the byte written. -/
theorem readCells_writeCells_same {l : List Host.Cell} {lo : Nat} (hw : cellsWf d hi lo l = true) (a : Nat) (b : Byte) :
    readCells d (writeCells d l a b) a = b := by
  induction l generalizing lo with
  | nil => by_cases hb : b = d a <;> simp [writeCells, readCells, hb]
  | cons cell rest ih =>
    obtain ⟨j, c⟩ := cell
    have hw' := hw
    simp only [cellsWf, Bool.and_eq_true, decide_eq_true_eq] at hw
    simp only [writeCells]
    split
    · split
      · rename_i hlt hb
        have hne : a ≠ j := by omega
        simp only [readCells, if_neg hne]
        rw [readCells_of_lt hw.2 (by omega), hb]
      · simp [readCells]
    · split
      · rename_i heq
        split
        · rename_i hb
          rw [readCells_of_lt hw.2 (by omega), hb]
        · simp [readCells]
      · rename_i hne
        simp only [readCells, if_neg hne]
        exact ih hw.2

/-- A read after a write, at any address. -/
theorem readCells_writeCells {l : List Host.Cell} {lo : Nat} (hw : cellsWf d hi lo l = true) (a k : Nat) (b : Byte) :
    readCells d (writeCells d l a b) k = if k = a then b else readCells d l k := by
  by_cases h : k = a
  · subst h; simp [readCells_writeCells_same hw]
  · simp [h, readCells_writeCells_ne l b h]

/-- A lower bound may be lowered. -/
theorem cellsWf_mono {l : List Host.Cell} {lo lo' : Nat} (hw : cellsWf d hi lo l = true) (h : lo' ≤ lo) :
    cellsWf d hi lo' l = true := by
  cases l with
  | nil => rfl
  | cons cell rest =>
    simp only [cellsWf, Bool.and_eq_true, decide_eq_true_eq] at hw ⊢
    exact ⟨⟨⟨by omega, hw.1.1.2⟩, hw.1.2⟩, hw.2⟩

/-- A write inside the bounds keeps the canonical form. -/
theorem cellsWf_writeCells {l : List Host.Cell} {lo a : Nat} (hw : cellsWf d hi lo l = true) (b : Byte)
    (hlo : lo ≤ a) (hhi : a < hi) : cellsWf d hi lo (writeCells d l a b) = true := by
  induction l generalizing lo with
  | nil => by_cases hb : b = d a <;> simp [writeCells, cellsWf, hb, hlo, hhi]
  | cons cell rest ih =>
    obtain ⟨j, c⟩ := cell
    have hw' := hw
    simp only [cellsWf, Bool.and_eq_true, decide_eq_true_eq, bne_iff_ne] at hw
    obtain ⟨⟨⟨h1, h2⟩, h3⟩, h4⟩ := hw
    simp only [writeCells]
    split
    · rename_i hlt
      split
      · exact hw'
      · rename_i hb
        simp only [cellsWf, Bool.and_eq_true, decide_eq_true_eq, bne_iff_ne]
        exact ⟨⟨⟨hlo, hhi⟩, hb⟩, ⟨⟨by omega, h2⟩, h3⟩, h4⟩
    · split
      · rename_i heq
        subst heq
        split
        · exact cellsWf_mono h4 (by omega)
        · rename_i hb
          simp only [cellsWf, Bool.and_eq_true, decide_eq_true_eq, bne_iff_ne]
          exact ⟨⟨⟨h1, h2⟩, hb⟩, h4⟩
      · simp only [cellsWf, Bool.and_eq_true, decide_eq_true_eq, bne_iff_ne]
        exact ⟨⟨⟨h1, h2⟩, h3⟩, ih h4 (by omega)⟩

/-- Extensionality: two lists in canonical form that read alike everywhere are the same list. -/
theorem cells_ext {l m : List Host.Cell} {lo : Nat} (hl : cellsWf d hi lo l = true) (hm : cellsWf d hi lo m = true)
    (h : ∀ a, readCells d l a = readCells d m a) : l = m := by
  induction l generalizing m lo with
  | nil =>
    cases m with
    | nil => rfl
    | cons cell rest =>
      obtain ⟨j, c⟩ := cell
      simp only [cellsWf, Bool.and_eq_true, bne_iff_ne] at hm
      exact absurd (by simpa [readCells] using (h j).symm) hm.1.2
  | cons cell rest ih =>
    obtain ⟨j, c⟩ := cell
    simp only [cellsWf, Bool.and_eq_true, decide_eq_true_eq, bne_iff_ne] at hl
    cases m with
    | nil => exact absurd (by simpa [readCells] using h j) hl.1.2
    | cons cell' rest' =>
      obtain ⟨j', c'⟩ := cell'
      simp only [cellsWf, Bool.and_eq_true, decide_eq_true_eq, bne_iff_ne] at hm
      have hj : j = j' := by
        rcases Nat.lt_trichotomy j j' with hlt | heq | hgt
        · have := h j
          simp only [readCells, if_neg (show j ≠ j' by omega)] at this
          rw [readCells_of_lt hm.2 (by omega)] at this
          simp at this
          exact absurd this hl.1.2
        · exact heq
        · have := h j'
          simp only [readCells, if_neg (show j' ≠ j by omega)] at this
          rw [readCells_of_lt hl.2 (by omega)] at this
          simp at this
          exact absurd this.symm hm.1.2
      subst hj
      have hc : c = c' := by simpa [readCells] using h j
      subst hc
      have : rest = rest' := by
        apply ih hl.2 hm.2
        intro a
        by_cases ha : a = j
        · subst ha
          rw [readCells_of_lt hl.2 (by omega), readCells_of_lt hm.2 (by omega)]
        · simpa [readCells, ha] using h a
      rw [this]

end Sys2Proof.Machine
end

