-- ==== Sys2Proof/Laws/Encoding.lean ====
section
/-! SUPPORT. The fields of a word put together from a format (`30_encoding.md` rules R81, R82), and the two bytes of a
word put together again (rule R53). -/

namespace Sys2Proof

@[simp] theorem fieldMajor_formatNnn (m : Nibble) (nnn : Addr12) : fieldMajor (formatNnn m nnn) = m := by
  apply BitVec.eq_of_getLsbD_eq
  intro i hi
  simp only [fieldMajor, formatNnn, BitVec.getLsbD_extractLsb', BitVec.getLsbD_append, hi]
  simp

@[simp] theorem fieldNnn_formatNnn (m : Nibble) (nnn : Addr12) : fieldNnn (formatNnn m nnn) = nnn := by
  apply BitVec.eq_of_getLsbD_eq
  intro i hi
  simp only [fieldNnn, formatNnn, BitVec.getLsbD_extractLsb', BitVec.getLsbD_append, hi]
  simp [hi]

@[simp] theorem fieldMajor_formatXkk (m : Nibble) (x : Reg) (kk : Byte) : fieldMajor (formatXkk m x kk) = m := by
  apply BitVec.eq_of_getLsbD_eq
  intro i hi
  simp only [fieldMajor, formatXkk, BitVec.getLsbD_extractLsb', BitVec.getLsbD_append, hi]
  simp [show 12 + i - 8 - 4 = i by omega, show ¬ 12 + i < 8 by omega, show ¬ 12 + i - 8 < 4 by omega]

@[simp] theorem fieldX_formatXkk (m : Nibble) (x : Reg) (kk : Byte) : fieldX (formatXkk m x kk) = x := by
  apply BitVec.eq_of_getLsbD_eq
  intro i hi
  simp only [fieldX, formatXkk, BitVec.getLsbD_extractLsb', BitVec.getLsbD_append, hi]
  simp [hi]

@[simp] theorem fieldKk_formatXkk (m : Nibble) (x : Reg) (kk : Byte) : fieldKk (formatXkk m x kk) = kk := by
  apply BitVec.eq_of_getLsbD_eq
  intro i hi
  simp only [fieldKk, formatXkk, BitVec.getLsbD_extractLsb', BitVec.getLsbD_append, hi]
  simp [hi]

@[simp] theorem fieldMajor_formatXyn (m : Nibble) (x y : Reg) (n : Nibble) : fieldMajor (formatXyn m x y n) = m := by
  apply BitVec.eq_of_getLsbD_eq
  intro i hi
  simp only [fieldMajor, formatXyn, BitVec.getLsbD_extractLsb', BitVec.getLsbD_append, hi]
  simp [show 12 + i - 4 - 4 - 4 = i by omega, show ¬ 12 + i < 4 by omega, show ¬ 12 + i - 4 < 4 by omega,
    show ¬ 12 + i - 4 - 4 < 4 by omega]

@[simp] theorem fieldX_formatXyn (m : Nibble) (x y : Reg) (n : Nibble) : fieldX (formatXyn m x y n) = x := by
  apply BitVec.eq_of_getLsbD_eq
  intro i hi
  simp only [fieldX, formatXyn, BitVec.getLsbD_extractLsb', BitVec.getLsbD_append, hi]
  simp [hi, show 8 + i - 4 - 4 = i by omega, show ¬ 8 + i < 4 by omega, show ¬ 8 + i - 4 < 4 by omega]

@[simp] theorem fieldY_formatXyn (m : Nibble) (x y : Reg) (n : Nibble) : fieldY (formatXyn m x y n) = y := by
  apply BitVec.eq_of_getLsbD_eq
  intro i hi
  simp only [fieldY, formatXyn, BitVec.getLsbD_extractLsb', BitVec.getLsbD_append, hi]
  simp [hi]

@[simp] theorem fieldN_formatXyn (m : Nibble) (x y : Reg) (n : Nibble) : fieldN (formatXyn m x y n) = n := by
  apply BitVec.eq_of_getLsbD_eq
  intro i hi
  simp only [fieldN, formatXyn, BitVec.getLsbD_extractLsb', BitVec.getLsbD_append, hi]
  simp [hi]

/-- The two bytes of a word, put together as a fetch does, are the word (rule R53). -/
@[simp] theorem joinBytes_high_low (w : Word) : joinBytes (highByte w) (lowByte w) = w := by
  apply BitVec.eq_of_getLsbD_eq
  intro i hi
  simp only [joinBytes, highByte, lowByte, BitVec.getLsbD_extractLsb', BitVec.getLsbD_append]
  by_cases h : i < 8
  · simp [h]
  · simp [h, show i - 8 < 8 by omega, show 8 + (i - 8) = i by omega]

/-- The word the opcode table numbers with all sixteen bits is the word itself. -/
@[simp] theorem tableWord_sixteen (w : Word) : tableWord 16 w.toNat = w := by
  apply BitVec.eq_of_toNat_eq
  have : w.toNat < 65536 := w.isLt
  simp [tableWord, this]

/-! ### What a mask of rule R85 sees of a format -/

/-- A mask applied to a format is applied field by field. -/
theorem formatNnn_and (m m' : Nibble) (a a' : Addr12) :
    formatNnn m a &&& formatNnn m' a' = formatNnn (m &&& m') (a &&& a') :=
  BitVec.and_append

theorem formatXkk_and (m m' : Nibble) (x x' : Reg) (k k' : Byte) :
    formatXkk m x k &&& formatXkk m' x' k' = formatXkk (m &&& m') (x &&& x') (k &&& k') :=
  BitVec.and_append.trans (congrArg (· ++ (k &&& k')) BitVec.and_append)

theorem formatXyn_and (m m' : Nibble) (x x' y y' : Reg) (n n' : Nibble) :
    formatXyn m x y n &&& formatXyn m' x' y' n' = formatXyn (m &&& m') (x &&& x') (y &&& y') (n &&& n') :=
  BitVec.and_append.trans (congrArg (· ++ (n &&& n'))
    (BitVec.and_append.trans (congrArg (· ++ (y &&& y')) BitVec.and_append)))

end Sys2Proof
end

