-- ==== Sys2Proof/Laws/State.lean ====
section
/-! SUPPORT. One lemma per field per update, true by rfl, and the same for the two reads `reg` and `readMem` and for
one pixel, so that no later proof unfolds a record update. -/

namespace Sys2Proof.Machine
/-! ### setReg -/
@[simp] theorem State.setReg_config (s : State) (x : Reg) (b : Byte) : (s.setReg x b).config = s.config := rfl
@[simp] theorem State.setReg_index (s : State) (x : Reg) (b : Byte) : (s.setReg x b).index = s.index := rfl
@[simp] theorem State.setReg_pc (s : State) (x : Reg) (b : Byte) : (s.setReg x b).pc = s.pc := rfl
@[simp] theorem State.setReg_stack (s : State) (x : Reg) (b : Byte) : (s.setReg x b).stack = s.stack := rfl
@[simp] theorem State.setReg_sp (s : State) (x : Reg) (b : Byte) : (s.setReg x b).sp = s.sp := rfl
@[simp] theorem State.setReg_dt (s : State) (x : Reg) (b : Byte) : (s.setReg x b).dt = s.dt := rfl
@[simp] theorem State.setReg_st (s : State) (x : Reg) (b : Byte) : (s.setReg x b).st = s.st := rfl
@[simp] theorem State.setReg_tone (s : State) (x : Reg) (b : Byte) : (s.setReg x b).tone = s.tone := rfl
@[simp] theorem State.setReg_status (s : State) (x : Reg) (b : Byte) : (s.setReg x b).status = s.status := rfl
@[simp] theorem State.setReg_mem (s : State) (x : Reg) (b : Byte) : (s.setReg x b).mem = s.mem := rfl
@[simp] theorem State.setReg_fb (s : State) (x : Reg) (b : Byte) : (s.setReg x b).fb = s.fb := rfl
@[simp] theorem State.setReg_ports (s : State) (x : Reg) (b : Byte) : (s.setReg x b).ports = s.ports := rfl
@[simp] theorem State.setReg_readMem (s : State) (x : Reg) (b : Byte) (k : Nat) : (s.setReg x b).readMem k = s.readMem k := rfl
@[simp] theorem State.setReg_getPixel (s : State) (x : Reg) (b : Byte) (px py : Nat) :
    (s.setReg x b).getPixel px py = s.getPixel px py := rfl
/-! ### setIndex -/
@[simp] theorem State.setIndex_config (s : State) (w : Word) : (s.setIndex w).config = s.config := rfl
@[simp] theorem State.setIndex_v (s : State) (w : Word) : (s.setIndex w).v = s.v := rfl
@[simp] theorem State.setIndex_index (s : State) (w : Word) : (s.setIndex w).index = w := rfl
@[simp] theorem State.setIndex_pc (s : State) (w : Word) : (s.setIndex w).pc = s.pc := rfl
@[simp] theorem State.setIndex_stack (s : State) (w : Word) : (s.setIndex w).stack = s.stack := rfl
@[simp] theorem State.setIndex_sp (s : State) (w : Word) : (s.setIndex w).sp = s.sp := rfl
@[simp] theorem State.setIndex_dt (s : State) (w : Word) : (s.setIndex w).dt = s.dt := rfl
@[simp] theorem State.setIndex_st (s : State) (w : Word) : (s.setIndex w).st = s.st := rfl
@[simp] theorem State.setIndex_tone (s : State) (w : Word) : (s.setIndex w).tone = s.tone := rfl
@[simp] theorem State.setIndex_status (s : State) (w : Word) : (s.setIndex w).status = s.status := rfl
@[simp] theorem State.setIndex_mem (s : State) (w : Word) : (s.setIndex w).mem = s.mem := rfl
@[simp] theorem State.setIndex_fb (s : State) (w : Word) : (s.setIndex w).fb = s.fb := rfl
@[simp] theorem State.setIndex_ports (s : State) (w : Word) : (s.setIndex w).ports = s.ports := rfl
@[simp] theorem State.setIndex_reg (s : State) (w : Word) (r : Reg) : (s.setIndex w).reg r = s.reg r := rfl
@[simp] theorem State.setIndex_readMem (s : State) (w : Word) (k : Nat) : (s.setIndex w).readMem k = s.readMem k := rfl
@[simp] theorem State.setIndex_getPixel (s : State) (w : Word) (px py : Nat) :
    (s.setIndex w).getPixel px py = s.getPixel px py := rfl
/-! ### setPc -/
@[simp] theorem State.setPc_config (s : State) (w : Word) : (s.setPc w).config = s.config := rfl
@[simp] theorem State.setPc_v (s : State) (w : Word) : (s.setPc w).v = s.v := rfl
@[simp] theorem State.setPc_index (s : State) (w : Word) : (s.setPc w).index = s.index := rfl
@[simp] theorem State.setPc_pc (s : State) (w : Word) : (s.setPc w).pc = w := rfl
@[simp] theorem State.setPc_stack (s : State) (w : Word) : (s.setPc w).stack = s.stack := rfl
@[simp] theorem State.setPc_sp (s : State) (w : Word) : (s.setPc w).sp = s.sp := rfl
@[simp] theorem State.setPc_dt (s : State) (w : Word) : (s.setPc w).dt = s.dt := rfl
@[simp] theorem State.setPc_st (s : State) (w : Word) : (s.setPc w).st = s.st := rfl
@[simp] theorem State.setPc_tone (s : State) (w : Word) : (s.setPc w).tone = s.tone := rfl
@[simp] theorem State.setPc_status (s : State) (w : Word) : (s.setPc w).status = s.status := rfl
@[simp] theorem State.setPc_mem (s : State) (w : Word) : (s.setPc w).mem = s.mem := rfl
@[simp] theorem State.setPc_fb (s : State) (w : Word) : (s.setPc w).fb = s.fb := rfl
@[simp] theorem State.setPc_ports (s : State) (w : Word) : (s.setPc w).ports = s.ports := rfl
@[simp] theorem State.setPc_reg (s : State) (w : Word) (r : Reg) : (s.setPc w).reg r = s.reg r := rfl
@[simp] theorem State.setPc_readMem (s : State) (w : Word) (k : Nat) : (s.setPc w).readMem k = s.readMem k := rfl
@[simp] theorem State.setPc_getPixel (s : State) (w : Word) (px py : Nat) :
    (s.setPc w).getPixel px py = s.getPixel px py := rfl
/-! ### setDt -/
@[simp] theorem State.setDt_config (s : State) (b : Byte) : (s.setDt b).config = s.config := rfl
@[simp] theorem State.setDt_v (s : State) (b : Byte) : (s.setDt b).v = s.v := rfl
@[simp] theorem State.setDt_index (s : State) (b : Byte) : (s.setDt b).index = s.index := rfl
@[simp] theorem State.setDt_pc (s : State) (b : Byte) : (s.setDt b).pc = s.pc := rfl
@[simp] theorem State.setDt_stack (s : State) (b : Byte) : (s.setDt b).stack = s.stack := rfl
@[simp] theorem State.setDt_sp (s : State) (b : Byte) : (s.setDt b).sp = s.sp := rfl
@[simp] theorem State.setDt_dt (s : State) (b : Byte) : (s.setDt b).dt = b := rfl
@[simp] theorem State.setDt_st (s : State) (b : Byte) : (s.setDt b).st = s.st := rfl
@[simp] theorem State.setDt_tone (s : State) (b : Byte) : (s.setDt b).tone = s.tone := rfl
@[simp] theorem State.setDt_status (s : State) (b : Byte) : (s.setDt b).status = s.status := rfl
@[simp] theorem State.setDt_mem (s : State) (b : Byte) : (s.setDt b).mem = s.mem := rfl
@[simp] theorem State.setDt_fb (s : State) (b : Byte) : (s.setDt b).fb = s.fb := rfl
@[simp] theorem State.setDt_ports (s : State) (b : Byte) : (s.setDt b).ports = s.ports := rfl
@[simp] theorem State.setDt_reg (s : State) (b : Byte) (r : Reg) : (s.setDt b).reg r = s.reg r := rfl
@[simp] theorem State.setDt_readMem (s : State) (b : Byte) (k : Nat) : (s.setDt b).readMem k = s.readMem k := rfl
@[simp] theorem State.setDt_getPixel (s : State) (b : Byte) (px py : Nat) :
    (s.setDt b).getPixel px py = s.getPixel px py := rfl
/-! ### setSt -/
@[simp] theorem State.setSt_config (s : State) (b : Byte) : (s.setSt b).config = s.config := rfl
@[simp] theorem State.setSt_v (s : State) (b : Byte) : (s.setSt b).v = s.v := rfl
@[simp] theorem State.setSt_index (s : State) (b : Byte) : (s.setSt b).index = s.index := rfl
@[simp] theorem State.setSt_pc (s : State) (b : Byte) : (s.setSt b).pc = s.pc := rfl
@[simp] theorem State.setSt_stack (s : State) (b : Byte) : (s.setSt b).stack = s.stack := rfl
@[simp] theorem State.setSt_sp (s : State) (b : Byte) : (s.setSt b).sp = s.sp := rfl
@[simp] theorem State.setSt_dt (s : State) (b : Byte) : (s.setSt b).dt = s.dt := rfl
@[simp] theorem State.setSt_st (s : State) (b : Byte) : (s.setSt b).st = b := rfl
@[simp] theorem State.setSt_tone (s : State) (b : Byte) : (s.setSt b).tone = s.tone := rfl
@[simp] theorem State.setSt_status (s : State) (b : Byte) : (s.setSt b).status = s.status := rfl
@[simp] theorem State.setSt_mem (s : State) (b : Byte) : (s.setSt b).mem = s.mem := rfl
@[simp] theorem State.setSt_fb (s : State) (b : Byte) : (s.setSt b).fb = s.fb := rfl
@[simp] theorem State.setSt_ports (s : State) (b : Byte) : (s.setSt b).ports = s.ports := rfl
@[simp] theorem State.setSt_reg (s : State) (b : Byte) (r : Reg) : (s.setSt b).reg r = s.reg r := rfl
@[simp] theorem State.setSt_readMem (s : State) (b : Byte) (k : Nat) : (s.setSt b).readMem k = s.readMem k := rfl
@[simp] theorem State.setSt_getPixel (s : State) (b : Byte) (px py : Nat) :
    (s.setSt b).getPixel px py = s.getPixel px py := rfl
/-! ### setFb -/
@[simp] theorem State.setFb_config (s : State) (buf : List Host.Cell) : (s.setFb buf).config = s.config := rfl
@[simp] theorem State.setFb_v (s : State) (buf : List Host.Cell) : (s.setFb buf).v = s.v := rfl
@[simp] theorem State.setFb_index (s : State) (buf : List Host.Cell) : (s.setFb buf).index = s.index := rfl
@[simp] theorem State.setFb_pc (s : State) (buf : List Host.Cell) : (s.setFb buf).pc = s.pc := rfl
@[simp] theorem State.setFb_stack (s : State) (buf : List Host.Cell) : (s.setFb buf).stack = s.stack := rfl
@[simp] theorem State.setFb_sp (s : State) (buf : List Host.Cell) : (s.setFb buf).sp = s.sp := rfl
@[simp] theorem State.setFb_dt (s : State) (buf : List Host.Cell) : (s.setFb buf).dt = s.dt := rfl
@[simp] theorem State.setFb_st (s : State) (buf : List Host.Cell) : (s.setFb buf).st = s.st := rfl
@[simp] theorem State.setFb_tone (s : State) (buf : List Host.Cell) : (s.setFb buf).tone = s.tone := rfl
@[simp] theorem State.setFb_status (s : State) (buf : List Host.Cell) : (s.setFb buf).status = s.status := rfl
@[simp] theorem State.setFb_mem (s : State) (buf : List Host.Cell) : (s.setFb buf).mem = s.mem := rfl
@[simp] theorem State.setFb_fb (s : State) (buf : List Host.Cell) : (s.setFb buf).fb = buf := rfl
@[simp] theorem State.setFb_ports (s : State) (buf : List Host.Cell) : (s.setFb buf).ports = s.ports := rfl
@[simp] theorem State.setFb_reg (s : State) (buf : List Host.Cell) (r : Reg) : (s.setFb buf).reg r = s.reg r := rfl
@[simp] theorem State.setFb_readMem (s : State) (buf : List Host.Cell) (k : Nat) : (s.setFb buf).readMem k = s.readMem k := rfl
/-! ### setRequests -/
@[simp] theorem State.setRequests_config (s : State) (ops : List Op) : (s.setRequests ops).config = s.config := rfl
@[simp] theorem State.setRequests_v (s : State) (ops : List Op) : (s.setRequests ops).v = s.v := rfl
@[simp] theorem State.setRequests_index (s : State) (ops : List Op) : (s.setRequests ops).index = s.index := rfl
@[simp] theorem State.setRequests_pc (s : State) (ops : List Op) : (s.setRequests ops).pc = s.pc := rfl
@[simp] theorem State.setRequests_stack (s : State) (ops : List Op) : (s.setRequests ops).stack = s.stack := rfl
@[simp] theorem State.setRequests_sp (s : State) (ops : List Op) : (s.setRequests ops).sp = s.sp := rfl
@[simp] theorem State.setRequests_dt (s : State) (ops : List Op) : (s.setRequests ops).dt = s.dt := rfl
@[simp] theorem State.setRequests_st (s : State) (ops : List Op) : (s.setRequests ops).st = s.st := rfl
@[simp] theorem State.setRequests_tone (s : State) (ops : List Op) : (s.setRequests ops).tone = s.tone := rfl
@[simp] theorem State.setRequests_status (s : State) (ops : List Op) : (s.setRequests ops).status = s.status := rfl
@[simp] theorem State.setRequests_mem (s : State) (ops : List Op) : (s.setRequests ops).mem = s.mem := rfl
@[simp] theorem State.setRequests_fb (s : State) (ops : List Op) : (s.setRequests ops).fb = s.fb := rfl
@[simp] theorem State.setRequests_ports (s : State) (ops : List Op) : (s.setRequests ops).ports = { s.ports with requests := ops } := rfl
@[simp] theorem State.setRequests_reg (s : State) (ops : List Op) (r : Reg) : (s.setRequests ops).reg r = s.reg r := rfl
@[simp] theorem State.setRequests_readMem (s : State) (ops : List Op) (k : Nat) : (s.setRequests ops).readMem k = s.readMem k := rfl
@[simp] theorem State.setRequests_getPixel (s : State) (ops : List Op) (px py : Nat) :
    (s.setRequests ops).getPixel px py = s.getPixel px py := rfl
/-! ### writeMem -/
@[simp] theorem State.writeMem_config (s : State) (a : Nat) (b : Byte) : (s.writeMem a b).config = s.config := rfl
@[simp] theorem State.writeMem_v (s : State) (a : Nat) (b : Byte) : (s.writeMem a b).v = s.v := rfl
@[simp] theorem State.writeMem_index (s : State) (a : Nat) (b : Byte) : (s.writeMem a b).index = s.index := rfl
@[simp] theorem State.writeMem_pc (s : State) (a : Nat) (b : Byte) : (s.writeMem a b).pc = s.pc := rfl
@[simp] theorem State.writeMem_stack (s : State) (a : Nat) (b : Byte) : (s.writeMem a b).stack = s.stack := rfl
@[simp] theorem State.writeMem_sp (s : State) (a : Nat) (b : Byte) : (s.writeMem a b).sp = s.sp := rfl
@[simp] theorem State.writeMem_dt (s : State) (a : Nat) (b : Byte) : (s.writeMem a b).dt = s.dt := rfl
@[simp] theorem State.writeMem_st (s : State) (a : Nat) (b : Byte) : (s.writeMem a b).st = s.st := rfl
@[simp] theorem State.writeMem_tone (s : State) (a : Nat) (b : Byte) : (s.writeMem a b).tone = s.tone := rfl
@[simp] theorem State.writeMem_status (s : State) (a : Nat) (b : Byte) : (s.writeMem a b).status = s.status := rfl
@[simp] theorem State.writeMem_mem (s : State) (a : Nat) (b : Byte) : (s.writeMem a b).mem = writeCells (resetByte s.config) s.mem a b := rfl
@[simp] theorem State.writeMem_fb (s : State) (a : Nat) (b : Byte) : (s.writeMem a b).fb = s.fb := rfl
@[simp] theorem State.writeMem_ports (s : State) (a : Nat) (b : Byte) : (s.writeMem a b).ports = s.ports := rfl
@[simp] theorem State.writeMem_reg (s : State) (a : Nat) (b : Byte) (r : Reg) : (s.writeMem a b).reg r = s.reg r := rfl
@[simp] theorem State.writeMem_getPixel (s : State) (a : Nat) (b : Byte) (px py : Nat) :
    (s.writeMem a b).getPixel px py = s.getPixel px py := rfl
/-! ### setFlag -/
@[simp] theorem State.setFlag_config (s : State) (f : Bool) : (s.setFlag f).config = s.config := rfl
@[simp] theorem State.setFlag_index (s : State) (f : Bool) : (s.setFlag f).index = s.index := rfl
@[simp] theorem State.setFlag_pc (s : State) (f : Bool) : (s.setFlag f).pc = s.pc := rfl
@[simp] theorem State.setFlag_stack (s : State) (f : Bool) : (s.setFlag f).stack = s.stack := rfl
@[simp] theorem State.setFlag_sp (s : State) (f : Bool) : (s.setFlag f).sp = s.sp := rfl
@[simp] theorem State.setFlag_dt (s : State) (f : Bool) : (s.setFlag f).dt = s.dt := rfl
@[simp] theorem State.setFlag_st (s : State) (f : Bool) : (s.setFlag f).st = s.st := rfl
@[simp] theorem State.setFlag_tone (s : State) (f : Bool) : (s.setFlag f).tone = s.tone := rfl
@[simp] theorem State.setFlag_status (s : State) (f : Bool) : (s.setFlag f).status = s.status := rfl
@[simp] theorem State.setFlag_mem (s : State) (f : Bool) : (s.setFlag f).mem = s.mem := rfl
@[simp] theorem State.setFlag_fb (s : State) (f : Bool) : (s.setFlag f).fb = s.fb := rfl
@[simp] theorem State.setFlag_ports (s : State) (f : Bool) : (s.setFlag f).ports = s.ports := rfl
@[simp] theorem State.setFlag_readMem (s : State) (f : Bool) (k : Nat) : (s.setFlag f).readMem k = s.readMem k := rfl
@[simp] theorem State.setFlag_getPixel (s : State) (f : Bool) (px py : Nat) :
    (s.setFlag f).getPixel px py = s.getPixel px py := rfl
/-! ### takeFault -/
@[simp] theorem State.takeFault_config (s : State) (f : Fault) (a : Word) : (s.takeFault f a).config = s.config := rfl
@[simp] theorem State.takeFault_v (s : State) (f : Fault) (a : Word) : (s.takeFault f a).v = s.v := rfl
@[simp] theorem State.takeFault_index (s : State) (f : Fault) (a : Word) : (s.takeFault f a).index = s.index := rfl
@[simp] theorem State.takeFault_pc (s : State) (f : Fault) (a : Word) : (s.takeFault f a).pc = a := rfl
@[simp] theorem State.takeFault_stack (s : State) (f : Fault) (a : Word) : (s.takeFault f a).stack = s.stack := rfl
@[simp] theorem State.takeFault_sp (s : State) (f : Fault) (a : Word) : (s.takeFault f a).sp = s.sp := rfl
@[simp] theorem State.takeFault_dt (s : State) (f : Fault) (a : Word) : (s.takeFault f a).dt = s.dt := rfl
@[simp] theorem State.takeFault_st (s : State) (f : Fault) (a : Word) : (s.takeFault f a).st = s.st := rfl
@[simp] theorem State.takeFault_tone (s : State) (f : Fault) (a : Word) : (s.takeFault f a).tone = s.tone := rfl
@[simp] theorem State.takeFault_status (s : State) (f : Fault) (a : Word) : (s.takeFault f a).status = .faulted f a := rfl
@[simp] theorem State.takeFault_mem (s : State) (f : Fault) (a : Word) : (s.takeFault f a).mem = s.mem := rfl
@[simp] theorem State.takeFault_fb (s : State) (f : Fault) (a : Word) : (s.takeFault f a).fb = s.fb := rfl
@[simp] theorem State.takeFault_ports (s : State) (f : Fault) (a : Word) : (s.takeFault f a).ports = s.ports := rfl
@[simp] theorem State.takeFault_reg (s : State) (f : Fault) (a : Word) (r : Reg) : (s.takeFault f a).reg r = s.reg r := rfl
@[simp] theorem State.takeFault_readMem (s : State) (f : Fault) (a : Word) (k : Nat) : (s.takeFault f a).readMem k = s.readMem k := rfl
@[simp] theorem State.takeFault_getPixel (s : State) (f : Fault) (a : Word) (px py : Nat) :
    (s.takeFault f a).getPixel px py = s.getPixel px py := rfl
/-! ### raise -/
@[simp] theorem State.raise_config (s : State) (f : Fault) : (s.raise f).config = s.config := rfl
@[simp] theorem State.raise_v (s : State) (f : Fault) : (s.raise f).v = s.v := rfl
@[simp] theorem State.raise_index (s : State) (f : Fault) : (s.raise f).index = s.index := rfl
@[simp] theorem State.raise_pc (s : State) (f : Fault) : (s.raise f).pc = s.pc - 2 := rfl
@[simp] theorem State.raise_stack (s : State) (f : Fault) : (s.raise f).stack = s.stack := rfl
@[simp] theorem State.raise_sp (s : State) (f : Fault) : (s.raise f).sp = s.sp := rfl
@[simp] theorem State.raise_dt (s : State) (f : Fault) : (s.raise f).dt = s.dt := rfl
@[simp] theorem State.raise_st (s : State) (f : Fault) : (s.raise f).st = s.st := rfl
@[simp] theorem State.raise_tone (s : State) (f : Fault) : (s.raise f).tone = s.tone := rfl
@[simp] theorem State.raise_status (s : State) (f : Fault) : (s.raise f).status = .faulted f (s.pc - 2) := rfl
@[simp] theorem State.raise_mem (s : State) (f : Fault) : (s.raise f).mem = s.mem := rfl
@[simp] theorem State.raise_fb (s : State) (f : Fault) : (s.raise f).fb = s.fb := rfl
@[simp] theorem State.raise_ports (s : State) (f : Fault) : (s.raise f).ports = s.ports := rfl
@[simp] theorem State.raise_reg (s : State) (f : Fault) (r : Reg) : (s.raise f).reg r = s.reg r := rfl
@[simp] theorem State.raise_readMem (s : State) (f : Fault) (k : Nat) : (s.raise f).readMem k = s.readMem k := rfl
@[simp] theorem State.raise_getPixel (s : State) (f : Fault) (px py : Nat) :
    (s.raise f).getPixel px py = s.getPixel px py := rfl
/-! ### tick -/
@[simp] theorem tick_config (s : State) : (tick s).config = s.config := rfl
@[simp] theorem tick_v (s : State) : (tick s).v = s.v := rfl
@[simp] theorem tick_index (s : State) : (tick s).index = s.index := rfl
@[simp] theorem tick_pc (s : State) : (tick s).pc = s.pc := rfl
@[simp] theorem tick_stack (s : State) : (tick s).stack = s.stack := rfl
@[simp] theorem tick_sp (s : State) : (tick s).sp = s.sp := rfl
@[simp] theorem tick_dt (s : State) : (tick s).dt = countDown s.dt := rfl
@[simp] theorem tick_st (s : State) : (tick s).st = countDown s.st := rfl
@[simp] theorem tick_tone (s : State) : (tick s).tone = decide (0 < (countDown s.st).toNat) := rfl
@[simp] theorem tick_status (s : State) : (tick s).status = s.status := rfl
@[simp] theorem tick_mem (s : State) : (tick s).mem = s.mem := rfl
@[simp] theorem tick_fb (s : State) : (tick s).fb = s.fb := rfl
@[simp] theorem tick_ports (s : State) : (tick s).ports = s.ports := rfl
@[simp] theorem tick_reg (s : State) (r : Reg) : (tick s).reg r = s.reg r := rfl
@[simp] theorem tick_readMem (s : State) (k : Nat) : (tick s).readMem k = s.readMem k := rfl

end Sys2Proof.Machine
end

