-- ==== Sys2Proof/Laws/Ops.lean ====
section
/-! SUPPORT. What each shared operation does, said once: registers, memory, block moves, the stack, the input ports,
the data bound, and taking a fault. -/

namespace Sys2Proof.Machine

/-! ### Registers -/

/-- A register read after a register write. -/
theorem State.reg_setReg (s : State) (x r : Reg) (b : Byte) :
    (s.setReg x b).reg r = if r = x then b else s.reg r := by
  have hx := x.isLt
  have hr := r.isLt
  have : ((s.setReg x b).reg r : Byte) = if x.toNat = r.toNat then b else s.reg r := by
    simp only [State.reg, State.setReg]
    exact Vector.getElem_set (hi := hx) (hj := hr)
  rw [this]
  by_cases h : r = x
  · simp [h]
  · rw [if_neg h, if_neg (fun e => h (BitVec.eq_of_toNat_eq (Eq.symm e)))]

@[simp] theorem State.reg_setReg_same (s : State) (x : Reg) (b : Byte) : (s.setReg x b).reg x = b := by
  simp [State.reg_setReg]

/-- The flag write is a write of `VF` (rule R21). -/
theorem State.reg_setFlag (s : State) (f : Bool) (r : Reg) :
    (s.setFlag f).reg r = if r = VF then flagByte f else s.reg r := State.reg_setReg s VF r _

/-- Two register files that read alike are the same. -/
theorem State.v_ext {s t : State} (h : ∀ r, s.reg r = t.reg r) : s.v = t.v := by
  apply Vector.ext
  intro j hj
  have := h (BitVec.ofNat 4 j)
  simpa [State.reg, Nat.mod_eq_of_lt hj] using this

/-! ### Memory -/

/-- A write leaves every other byte alone. -/
theorem State.readMem_writeMem_ne (s : State) {a k : Nat} (b : Byte) (h : k ≠ a) :
    (s.writeMem a b).readMem k = s.readMem k := readCells_writeCells_ne s.mem b h

/-- A read after a write, in a memory in canonical form. -/
theorem State.readMem_writeMem {s : State} (hw : Memory.wf s.config s.mem = true) (a k : Nat) (b : Byte) :
    (s.writeMem a b).readMem k = if k = a then b else s.readMem k := readCells_writeCells hw a k b

/-- A write to an address that exists keeps the canonical form. -/
theorem State.writeMem_wf {s : State} (hw : Memory.wf s.config s.mem = true) {a : Nat} (b : Byte) (h : a < memSize) :
    Memory.wf (s.writeMem a b).config (s.writeMem a b).mem = true := cellsWf_writeCells hw b (Nat.zero_le a) h

/-- The memory RESET leaves is in canonical form. -/
theorem construct_memory_wf (c : Config) (p : Ports) :
    Memory.wf (State.construct c p).config (State.construct c p).mem = true := rfl

@[simp] theorem State.writeBytes_nil (s : State) (a : Nat) : s.writeBytes a [] = s := rfl

@[simp] theorem State.writeBytes_cons (s : State) (a : Nat) (b : Byte) (bs : List Byte) :
    s.writeBytes a (b :: bs) = (s.writeMem a b).writeBytes (a + 1) bs := rfl

/-- A block write changes memory and nothing else. -/
theorem State.writeBytes_eq (s : State) (a : Nat) (bs : List Byte) :
    s.writeBytes a bs = { s with mem := (s.writeBytes a bs).mem } := by
  induction bs generalizing s a with
  | nil => rfl
  | cons b bs ih => rw [State.writeBytes_cons, ih]; rfl

/-- A block write leaves every byte outside its range alone. -/
theorem State.readMem_writeBytes_out (s : State) (a k : Nat) (bs : List Byte) (h : k < a ∨ a + bs.length ≤ k) :
    (s.writeBytes a bs).readMem k = s.readMem k := by
  induction bs generalizing s a with
  | nil => rfl
  | cons b bs ih =>
    simp only [List.length_cons] at h
    rw [State.writeBytes_cons, ih _ _ (by omega), State.readMem_writeMem_ne _ _ (by omega)]

/-- A block write inside the address space keeps the canonical form. -/
theorem State.writeBytes_wf {s : State} (hw : Memory.wf s.config s.mem = true) (a : Nat) (bs : List Byte)
    (h : bs = [] ∨ a + bs.length ≤ memSize) :
    Memory.wf (s.writeBytes a bs).config (s.writeBytes a bs).mem = true := by
  induction bs generalizing s a with
  | nil => exact hw
  | cons b bs ih =>
    simp only [List.length_cons, reduceCtorEq, false_or] at h
    exact ih (State.writeMem_wf hw b (by omega)) (a + 1) (Or.inr (by omega))

/-- A block write puts each byte of the block at its place. -/
theorem State.readMem_writeBytes_in {s : State} (hw : Memory.wf s.config s.mem = true) (a : Nat) (bs : List Byte)
    (h : a + bs.length ≤ memSize) (j : Nat) (hj : j < bs.length) :
    (s.writeBytes a bs).readMem (a + j) = bs[j] := by
  induction bs generalizing s a j with
  | nil => exact absurd hj (Nat.not_lt_zero j)
  | cons b bs ih =>
    simp only [List.length_cons] at h hj
    have hw' := State.writeMem_wf hw b (a := a) (by omega)
    cases j with
    | zero =>
      rw [State.writeBytes_cons, State.readMem_writeBytes_out _ _ _ _ (by omega), Nat.add_zero,
        State.readMem_writeMem hw, if_pos rfl, List.getElem_cons_zero]
    | succ j =>
      rw [State.writeBytes_cons, show a + (j + 1) = a + 1 + j by omega, ih hw' (a + 1) (by omega) j (by omega),
        List.getElem_cons_succ]

@[simp] theorem State.readBytes_length (s : State) (a n : Nat) : (s.readBytes a n).length = n := by
  induction n generalizing a with
  | zero => rfl
  | succ n ih => simp [State.readBytes, ih]

/-- The `j`-th byte of a block read is the byte at its address. -/
theorem State.readBytes_getElem (s : State) (a n j : Nat) (h : j < (s.readBytes a n).length) :
    (s.readBytes a n)[j] = s.readMem (a + j) := by
  induction n generalizing a j with
  | zero => simp [State.readBytes] at h
  | succ n ih =>
    simp only [State.readBytes_length] at h
    cases j with
    | zero => simp [State.readBytes]
    | succ j => simp only [State.readBytes, List.getElem_cons_succ]; rw [ih]; congr 1; omega

/-! ### Register blocks -/

@[simp] theorem State.readRegs_length (s : State) (k n : Nat) : (s.readRegs k n).length = n := by
  induction n generalizing k with
  | zero => rfl
  | succ n ih => simp [State.readRegs, ih]

/-- The `j`-th byte of a register block is that register. -/
theorem State.readRegs_getElem (s : State) (k n j : Nat) (h : j < (s.readRegs k n).length) :
    (s.readRegs k n)[j] = s.reg (BitVec.ofNat 4 (k + j)) := by
  induction n generalizing k j with
  | zero => simp [State.readRegs] at h
  | succ n ih =>
    simp only [State.readRegs_length] at h
    cases j with
    | zero => simp [State.readRegs]
    | succ j => simp only [State.readRegs, List.getElem_cons_succ]; rw [ih]; congr 2; omega

/-- Loading a register block changes the registers and nothing else. -/
theorem State.writeRegs_eq (s : State) (k : Nat) (bs : List Byte) :
    s.writeRegs k bs = { s with v := (s.writeRegs k bs).v } := by
  induction bs generalizing s k with
  | nil => rfl
  | cons b bs ih => rw [State.writeRegs, ih]; rfl

/-- What a register holds after a register block is loaded: the block's byte inside the block, the old value
outside. -/
theorem State.reg_writeRegs (s : State) (k : Nat) (bs : List Byte) (h : k + bs.length ≤ 16) (r : Reg) :
    (s.writeRegs k bs).reg r = if k ≤ r.toNat then bs.getD (r.toNat - k) (s.reg r) else s.reg r := by
  induction bs generalizing s k with
  | nil => simp [State.writeRegs]
  | cons b bs ih =>
    simp only [List.length_cons] at h
    rw [State.writeRegs, ih _ _ (by omega), State.reg_setReg]
    have hr : r = BitVec.ofNat 4 k ↔ r.toNat = k := by
      constructor
      · intro e; rw [e]; simp; omega
      · intro e; apply BitVec.eq_of_toNat_eq; simp; omega
    by_cases h1 : r.toNat = k
    · simp [hr, h1]
    · rw [if_neg (fun e => h1 (hr.1 e))]
      by_cases h2 : k ≤ r.toNat
      · rw [if_pos (by omega), if_pos h2]
        obtain ⟨m, hm⟩ : ∃ m, r.toNat - k = m + 1 := ⟨r.toNat - k - 1, by omega⟩
        rw [hm, show r.toNat - (k + 1) = m by omega]
        simp
      · rw [if_neg (by omega), if_neg h2]

/-! ### The stack -/

/-- Everything a push can do (rules R27, R108). -/
theorem State.push_cases (s : State) (w : Word) :
    (s.sp.val = 16 ∧ s.push w = none) ∨
    (∃ h : s.sp.val < 16, s.push w =
      some { s with stack := s.stack.set s.sp.val w h, sp := ⟨s.sp.val + 1, by omega⟩ }) := by
  by_cases h : s.sp.val < 16
  · exact .inr ⟨h, by simp [State.push, h]⟩
  · exact .inl ⟨by have := s.sp.isLt; omega, by simp [State.push, h]⟩

/-- Everything a pop can do (rules R26, R102). -/
theorem State.pop_cases (s : State) :
    (s.sp.val = 0 ∧ s.pop = none) ∨
    (∃ (_ : 0 < s.sp.val) (_ : s.sp.val - 1 < 16), s.pop =
      some (s.stack[s.sp.val - 1], { s with sp := ⟨s.sp.val - 1, by omega⟩ })) := by
  by_cases h : 0 < s.sp.val
  · exact .inr ⟨h, by have := s.sp.isLt; omega, by simp [State.pop, h, State.stackEntry]⟩
  · exact .inl ⟨by omega, by simp [State.pop, h]⟩

/-! ### The input ports -/

/-- A scripted sample is delivered and taken off the list. -/
theorem State.sampleKeys_scripted (s : State) (keys : BitVec 256) (rest : List (BitVec 256))
    (h : s.ports.keySamples = keys :: rest) :
    s.sampleKeys = (keys, { s with ports := { s.ports with keySamples := rest } }) := by
  simp only [State.sampleKeys, h]

/-- With no sample scripted the next free one is delivered and counted. -/
theorem State.sampleKeys_free (s : State) (h : s.ports.keySamples = []) :
    s.sampleKeys = (Config.freeKeys s.ports.keyDraws,
      { s with ports := { s.ports with keyDraws := s.ports.keyDraws + 1 } }) := by
  simp only [State.sampleKeys, h]

/-- A scripted byte is delivered and taken off the list. -/
theorem State.drawRand_scripted (s : State) (b : Byte) (rest : List Byte) (h : s.ports.randBytes = b :: rest) :
    s.drawRand = (b, { s with ports := { s.ports with randBytes := rest } }) := by
  simp only [State.drawRand, h]

/-- With no byte scripted the next free one is delivered and counted. -/
theorem State.drawRand_free (s : State) (h : s.ports.randBytes = []) :
    s.drawRand = (Config.freeRand s.ports.randDraws,
      { s with ports := { s.ports with randDraws := s.ports.randDraws + 1 } }) := by
  simp only [State.drawRand, h]

/-- A key sample touches the ports and nothing else. -/
theorem State.sampleKeys_eq (s : State) : s.sampleKeys.2 = { s with ports := s.sampleKeys.2.ports } := by
  unfold State.sampleKeys; split <;> rfl

/-- A random draw touches the ports and nothing else. -/
theorem State.drawRand_eq (s : State) : s.drawRand.2 = { s with ports := s.drawRand.2.ports } := by
  unfold State.drawRand; split <;> rfl

/-- The scan for a pressed key finds the least one of its range, or there is none. -/
theorem firstKey_cases (keys : BitVec 256) (j n : Nat) :
    (firstKey keys j n = none ∧ ∀ k, j ≤ k → k < j + n → keys.getLsbD k = false) ∨
    (∃ k, firstKey keys j n = some k ∧ j ≤ k ∧ k < j + n ∧ keys.getLsbD k = true ∧
      ∀ m, j ≤ m → m < k → keys.getLsbD m = false) := by
  induction n generalizing j with
  | zero => exact .inl ⟨rfl, fun k h1 h2 => absurd h2 (by omega)⟩
  | succ n ih =>
    unfold firstKey
    by_cases hj : keys.getLsbD j = true
    · exact .inr ⟨j, by simp [hj], by omega, by omega, hj, fun m h1 h2 => absurd h2 (by omega)⟩
    · simp only [Bool.not_eq_true] at hj
      simp only [hj, Bool.false_eq_true, if_false]
      rcases ih (j + 1) with ⟨h1, h2⟩ | ⟨k, h1, h2, h3, h4, h5⟩
      · refine .inl ⟨h1, fun k hk1 hk2 => ?_⟩
        by_cases e : k = j
        · rw [e]; exact hj
        · exact h2 k (by omega) (by omega)
      · refine .inr ⟨k, h1, by omega, by omega, h4, fun m hm1 hm2 => ?_⟩
        by_cases e : m = j
        · rw [e]; exact hj
        · exact h5 m (by omega) hm2

/-! ### The data bound and faults -/

/-- Everything the data bound can answer (rules R56, R150). -/
theorem State.dataFault_cases (s : State) (len : Nat) :
    ((len = 0 ∨ s.index.toNat + len ≤ memSize) ∧ s.dataFault len = none) ∨
    (0 < len ∧ memSize < s.index.toNat + len ∧
      s.dataFault len = some (.memoryOutOfBounds (max s.index.toNat memSize))) := by
  unfold State.dataFault
  by_cases h : 0 < len ∧ memSize ≤ s.index.toNat + len - 1
  · exact .inr ⟨h.1, by omega, by rw [if_pos h]⟩
  · exact .inl ⟨by omega, by rw [if_neg h]⟩

/-- A fault raised in the execute part leaves the machine as before the STEP but for `status` (rule R212). -/
theorem State.raise_after_advance (s : State) (f : Fault) :
    (s.setPc (s.pc + 2)).raise f = { s with status := .faulted f s.pc } := by
  simp [State.raise, State.takeFault, State.setPc]

end Sys2Proof.Machine
end

