-- ==== Sys2Proof/Laws/Frame.lean ====
section
/-! SUPPORT. The frame of each shared operation: what it leaves unchanged, said once. -/

namespace Sys2Proof.Machine

/-- Nothing changed: any frame holds. -/
theorem Frame.refl (m : Touched) (s : State) : Frame m s s := by simp [Frame]

/-- One frame after another. -/
theorem Frame.trans {m : Touched} {s t u : State} (h : Frame m s t) (k : Frame m t u) : Frame m s u := by
  obtain ⟨h0, h1, h2, h3, h4, h5, h6, h7, h8, h9, h10, h11, h12, h13⟩ := h
  obtain ⟨k0, k1, k2, k3, k4, k5, k6, k7, k8, k9, k10, k11, k12, k13⟩ := k
  exact ⟨fun r e => (k0 r e).trans (h0 r e), fun e => (k1 e).trans (h1 e), fun e => (k2 e).trans (h2 e),
    fun j e => (k3 j e).trans (h3 j e), fun e => (k4 e).trans (h4 e), fun e => (k5 e).trans (h5 e),
    fun e => (k6 e).trans (h6 e), fun e => (k7 e).trans (h7 e), fun e => (k8 e).trans (h8 e),
    fun a e => (k9 a e).trans (h9 a e), fun e j => (k10 e j).trans (h10 e j), fun e => (k11 e).trans (h11 e),
    k12.trans h12, k13.trans h13⟩

/-- A frame may be widened: whatever the wider one keeps, the narrower one kept. -/
theorem Frame.widen {m m' : Touched} {s t : State} (h : Frame m s t)
    (w0 : ∀ r, m'.regs r = false → m.regs r = false) (w1 : m'.index = false → m.index = false)
    (w2 : m'.pc = false → m.pc = false) (w3 : ∀ j, m'.entries j = false → m.entries j = false)
    (w4 : m'.sp = false → m.sp = false) (w5 : m'.dt = false → m.dt = false) (w6 : m'.st = false → m.st = false)
    (w7 : m'.tone = false → m.tone = false) (w8 : m'.status = false → m.status = false)
    (w9 : ∀ a, m'.mem a = false → m.mem a = false) (w10 : m'.display = false → m.display = false)
    (w11 : m'.ports = false → m.ports = false) : Frame m' s t := by
  obtain ⟨h0, h1, h2, h3, h4, h5, h6, h7, h8, h9, h10, h11, h12, h13⟩ := h
  exact ⟨fun r e => h0 r (w0 r e), fun e => h1 (w1 e), fun e => h2 (w2 e), fun j e => h3 j (w3 _ e),
    fun e => h4 (w4 e), fun e => h5 (w5 e), fun e => h6 (w6 e), fun e => h7 (w7 e), fun e => h8 (w8 e),
    fun a e => h9 a (w9 a e), fun e => h10 (w10 e), fun e => h11 (w11 e), h12, h13⟩

theorem State.setReg_frame (s : State) (x : Reg) (b : Byte) :
    Frame { regs := fun r => r == x } s (s.setReg x b) := by
  refine ⟨fun r h => ?_, ?_⟩
  · simp only [beq_eq_false_iff_ne, ne_eq] at h
    simp [State.reg_setReg, h]
  · simp

theorem State.setPc_frame (s : State) (w : Word) : Frame { pc := true } s (s.setPc w) := by simp [Frame]

theorem State.setIndex_frame (s : State) (w : Word) : Frame { index := true } s (s.setIndex w) := by simp [Frame]

theorem State.setDt_frame (s : State) (b : Byte) : Frame { dt := true } s (s.setDt b) := by simp [Frame]

theorem State.setSt_frame (s : State) (b : Byte) : Frame { st := true } s (s.setSt b) := by simp [Frame]

theorem State.setFb_frame (s : State) (buf : List Host.Cell) : Frame { display := true } s (s.setFb buf) := by
  simp [Frame]

theorem State.skipIf_frame (s : State) (cond : Bool) : Frame { pc := true } s (s.skipIf cond) := by
  unfold State.skipIf
  split
  · exact s.setPc_frame _
  · exact Frame.refl _ s

theorem State.raise_frame (s : State) (f : Fault) : Frame { pc := true, status := true } s (s.raise f) := by
  simp [Frame]

theorem State.writeBytes_frame (s : State) (bs : List Byte) :
    Frame { mem := s.dataRange bs.length } s (s.writeBytes s.index.toNat bs) := by
  have hm := fun k hk => State.readMem_writeBytes_out s s.index.toNat k bs hk
  rw [State.writeBytes_eq] at hm ⊢
  refine ⟨fun _ _ => rfl, fun _ => rfl, fun _ => rfl, fun _ _ => rfl, fun _ => rfl, fun _ => rfl, fun _ => rfl,
    fun _ => rfl, fun _ => rfl, fun a h => hm a ?_, fun _ _ => rfl, fun _ => rfl, rfl, rfl⟩
  simp only [State.dataRange, Bool.and_eq_false_iff, decide_eq_false_iff_not] at h
  omega

theorem State.writeRegs_frame (s : State) (bs : List Byte) (h : bs.length ≤ 16) :
    Frame { regs := fun r => decide (r.toNat < bs.length) } s (s.writeRegs 0 bs) := by
  have hr := fun r => State.reg_writeRegs s 0 bs (by omega) r
  rw [State.writeRegs_eq] at hr ⊢
  refine ⟨fun r e => ?_, fun _ => rfl, fun _ => rfl, fun _ _ => rfl, fun _ => rfl, fun _ => rfl, fun _ => rfl,
    fun _ => rfl, fun _ => rfl, fun _ _ => rfl, fun _ _ => rfl, fun _ => rfl, rfl, rfl⟩
  simp only [decide_eq_false_iff_not, Nat.not_lt] at e
  rw [hr r]
  simp [List.getElem?_eq_none e]

theorem State.sampleKeys_frame (s : State) : Frame { ports := true } s s.sampleKeys.2 := by
  unfold State.sampleKeys
  split <;> exact ⟨fun _ _ => rfl, fun _ => rfl, fun _ => rfl, fun _ _ => rfl, fun _ => rfl, fun _ => rfl, fun _ => rfl,
    fun _ => rfl, fun _ => rfl, fun _ _ => rfl, fun _ _ => rfl, fun h => absurd h (by decide), rfl, rfl⟩

theorem State.drawRand_frame (s : State) : Frame { ports := true } s s.drawRand.2 := by
  unfold State.drawRand
  split <;> exact ⟨fun _ _ => rfl, fun _ => rfl, fun _ => rfl, fun _ _ => rfl, fun _ => rfl, fun _ => rfl, fun _ => rfl,
    fun _ => rfl, fun _ => rfl, fun _ _ => rfl, fun _ _ => rfl, fun h => absurd h (by decide), rfl, rfl⟩

end Sys2Proof.Machine
end

