-- ==== Sys2Proof/Laws/Framebuffer.lean ====
section
/-! SUPPORT. The framebuffer controller's pieces: one bit of a byte, where a pixel stands in the packed buffer, and that
every operation on the buffer keeps its canonical form (`10_state.md` rules R34, R35). -/

namespace Sys2Proof.Machine

/-- Bit `k` of a byte one of whose bits was put (rule R174). -/
theorem putBit_getLsbD (b : Byte) {j : Nat} (k : Nat) (on : Bool) (hj : j < 8) :
    (putBit b j on).getLsbD k = if k = j then on else b.getLsbD k := by
  unfold putBit
  cases on
  · by_cases h : k = j
    · subst h; simp [hj]
    · simp only [Bool.false_eq_true, if_false, h, BitVec.getLsbD_and, BitVec.getLsbD_not, BitVec.getLsbD_twoPow]
      by_cases hb : b.getLsbD k = true
      · have := BitVec.lt_of_getLsbD hb
        simp [this, Ne.symm h]
      · rw [Bool.not_eq_true] at hb
        simp [hb]
  · by_cases h : k = j
    · subst h; simp [hj]
    · simp [BitVec.getLsbD_twoPow, h, Ne.symm h]

theorem pixelBit_lt (px : Nat) : pixelBit px < 8 := by unfold pixelBit; omega

theorem onDisplay_iff (c : Config) (px py : Nat) : onDisplay c px py = true ↔ px < c.width ∧ py < c.height := by
  simp [onDisplay]

/-- A pixel's byte is inside the packed buffer (rule R35). -/
theorem pixelByte_lt (c : Config) {px py : Nat} (h : onDisplay c px py = true) :
    pixelByte c px py < bufferSize c := by
  obtain ⟨hx, hy⟩ := (onDisplay_iff c px py).1 h
  have hr : px / 8 < rowBytes c := by unfold rowBytes; omega
  have hm : (py + 1) * rowBytes c ≤ c.height * rowBytes c := Nat.mul_le_mul_right _ hy
  have hs : (py + 1) * rowBytes c = py * rowBytes c + rowBytes c := Nat.succ_mul _ _
  have hc : rowBytes c * c.height = c.height * rowBytes c := Nat.mul_comm _ _
  unfold pixelByte bufferSize
  omega

/-- Two pixels of the display that share a byte and a bit are the same pixel (rule R35). -/
theorem pixel_unique (c : Config) {px py qx qy : Nat} (hp : px < c.width) (hq : qx < c.width)
    (hbyte : pixelByte c qx qy = pixelByte c px py) (hbit : pixelBit qx = pixelBit px) : qx = px ∧ qy = py := by
  unfold pixelByte at hbyte
  unfold pixelBit at hbit
  have hr : px / 8 < rowBytes c := by unfold rowBytes; omega
  have hr' : qx / 8 < rowBytes c := by unfold rowBytes; omega
  have hpos : 0 < rowBytes c := by omega
  have row : ∀ {a b : Nat}, b < rowBytes c → (a * rowBytes c + b) / rowBytes c = a := by
    intro a b h
    rw [Nat.add_comm, Nat.add_mul_div_right _ _ hpos, Nat.div_eq_of_lt h, Nat.zero_add]
  have hy : qy = py := by rw [← row hr' (a := qy), hbyte, row hr]
  subst hy
  exact ⟨by omega, rfl⟩

/-- `set` keeps the canonical form. -/
theorem setPixel_wf {c : Config} {buf : List Host.Cell} (hw : bufferWf c buf = true) (px py : Nat) (on : Bool) :
    bufferWf c (setPixel c buf px py on) = true := by
  unfold setPixel
  split
  · rename_i h; exact cellsWf_writeCells hw _ (Nat.zero_le _) (pixelByte_lt c h)
  · exact hw

theorem flipPixel_wf {c : Config} {buf : List Host.Cell} (hw : bufferWf c buf = true) (p : Nat × Nat) :
    bufferWf c (flipPixel c buf p) = true := setPixel_wf hw _ _ _

/-- Any sequence of flips keeps the canonical form. -/
theorem flipAll_wf {c : Config} {buf : List Host.Cell} (hw : bufferWf c buf = true) (ps : List (Nat × Nat)) :
    bufferWf c (flipAll c buf ps).1 = true := by
  induction ps generalizing buf with
  | nil => exact hw
  | cons p ps ih => exact ih (flipPixel_wf hw p)

/-- Flips run one after the other: the second list starts from what the first leaves. -/
theorem flipAll_append (c : Config) (buf : List Host.Cell) (ps qs : List (Nat × Nat)) :
    (flipAll c buf (ps ++ qs)).1 = (flipAll c (flipAll c buf ps).1 qs).1 := by
  induction ps generalizing buf with
  | nil => rfl
  | cons p ps ih => exact ih _

/-- A cleared buffer reads 0 everywhere (rule R173). -/
@[simp] theorem bufByte_clearBuffer (k : Nat) : bufByte clearBuffer k = 0 := rfl

end Sys2Proof.Machine
end

