-- ==== Sys2Proof/Laws/PerInstr.lean ====
section
/-! SUPPORT. Per instruction: the encoder stays inside the instruction's own row of the opcode map (`30_encoding.md`
rule R85), whatever the operands are. -/

namespace Sys2Proof

/-- Mask 0xF000 keeps the major nibble alone. -/
theorem maskMajor_formatNnn (m : Nibble) (nnn : Addr12) : formatNnn m nnn &&& 0xF000#16 = formatNnn m 0 := by
  rw [show (0xF000#16 : Word) = formatNnn 0xF 0 by decide, formatNnn_and,
    show (0xF : Nibble) = BitVec.allOnes 4 by decide, BitVec.and_allOnes]
  simp

theorem maskMajor_formatXkk (m : Nibble) (x : Reg) (kk : Byte) : formatXkk m x kk &&& 0xF000#16 = formatXkk m 0 0 := by
  rw [show (0xF000#16 : Word) = formatXkk 0xF 0 0 by decide, formatXkk_and,
    show (0xF : Nibble) = BitVec.allOnes 4 by decide, BitVec.and_allOnes]
  simp

theorem maskMajor_formatXyn (m : Nibble) (x y : Reg) (n : Nibble) :
    formatXyn m x y n &&& 0xF000#16 = formatXyn m 0 0 0 := by
  rw [show (0xF000#16 : Word) = formatXyn 0xF 0 0 0 by decide, formatXyn_and,
    show (0xF : Nibble) = BitVec.allOnes 4 by decide, BitVec.and_allOnes]
  simp

/-- Mask 0xF00F keeps the major and the low nibble. -/
theorem maskMinor_formatXyn (m : Nibble) (x y : Reg) (n : Nibble) :
    formatXyn m x y n &&& 0xF00F#16 = formatXyn m 0 0 n := by
  rw [show (0xF00F#16 : Word) = formatXyn 0xF 0 0 0xF by decide, formatXyn_and,
    show (0xF : Nibble) = BitVec.allOnes 4 by decide, BitVec.and_allOnes, BitVec.and_allOnes]
  simp

/-- Mask 0xF0FF keeps the major nibble and the low byte. -/
theorem maskByte_formatXkk (m : Nibble) (x : Reg) (kk : Byte) :
    formatXkk m x kk &&& 0xF0FF#16 = formatXkk m 0 kk := by
  rw [show (0xF0FF#16 : Word) = formatXkk 0xF 0 0xFF by decide, formatXkk_and,
    show (0xF : Nibble) = BitVec.allOnes 4 by decide, show (0xFF : Byte) = BitVec.allOnes 8 by decide,
    BitVec.and_allOnes, BitVec.and_allOnes]
  simp

end Sys2Proof

namespace Sys2Proof.Laws.RowMatch

open Sys2Proof

/-- The instruction's word selects the row of the opcode map that bears its mnemonic (rule R85). -/
def Statement (i : Instr) : Prop :=
  ∀ r, rowNamed i.mnemonic = some r → encode i &&& r.mask = r.value

theorem cls : Statement .cls := by
  intro r h
  cases Option.some.inj h
  decide

theorem ret : Statement .ret := by
  intro r h
  cases Option.some.inj h
  decide

theorem sys (nnn : Addr12) : Statement (.sys nnn) := by
  intro r h
  cases Option.some.inj h
  exact maskMajor_formatNnn _ _

theorem jp (nnn : Addr12) : Statement (.jp nnn) := by
  intro r h
  cases Option.some.inj h
  exact maskMajor_formatNnn _ _

theorem call (nnn : Addr12) : Statement (.call nnn) := by
  intro r h
  cases Option.some.inj h
  exact maskMajor_formatNnn _ _

theorem seImm (x : Reg) (kk : Byte) : Statement (.seImm x kk) := by
  intro r h
  cases Option.some.inj h
  exact maskMajor_formatXkk _ _ _

theorem sneImm (x : Reg) (kk : Byte) : Statement (.sneImm x kk) := by
  intro r h
  cases Option.some.inj h
  exact maskMajor_formatXkk _ _ _

theorem seReg (x : Reg) (y : Reg) : Statement (.seReg x y) := by
  intro r h
  cases Option.some.inj h
  exact maskMinor_formatXyn _ _ _ _

theorem ldImm (x : Reg) (kk : Byte) : Statement (.ldImm x kk) := by
  intro r h
  cases Option.some.inj h
  exact maskMajor_formatXkk _ _ _

theorem addImm (x : Reg) (kk : Byte) : Statement (.addImm x kk) := by
  intro r h
  cases Option.some.inj h
  exact maskMajor_formatXkk _ _ _

theorem ldReg (x : Reg) (y : Reg) : Statement (.ldReg x y) := by
  intro r h
  cases Option.some.inj h
  exact maskMinor_formatXyn _ _ _ _

theorem orReg (x : Reg) (y : Reg) : Statement (.orReg x y) := by
  intro r h
  cases Option.some.inj h
  exact maskMinor_formatXyn _ _ _ _

theorem andReg (x : Reg) (y : Reg) : Statement (.andReg x y) := by
  intro r h
  cases Option.some.inj h
  exact maskMinor_formatXyn _ _ _ _

theorem xorReg (x : Reg) (y : Reg) : Statement (.xorReg x y) := by
  intro r h
  cases Option.some.inj h
  exact maskMinor_formatXyn _ _ _ _

theorem addReg (x : Reg) (y : Reg) : Statement (.addReg x y) := by
  intro r h
  cases Option.some.inj h
  exact maskMinor_formatXyn _ _ _ _

theorem subReg (x : Reg) (y : Reg) : Statement (.subReg x y) := by
  intro r h
  cases Option.some.inj h
  exact maskMinor_formatXyn _ _ _ _

theorem shr (x : Reg) (y : Reg) : Statement (.shr x y) := by
  intro r h
  cases Option.some.inj h
  exact maskMinor_formatXyn _ _ _ _

theorem subnReg (x : Reg) (y : Reg) : Statement (.subnReg x y) := by
  intro r h
  cases Option.some.inj h
  exact maskMinor_formatXyn _ _ _ _

theorem shl (x : Reg) (y : Reg) : Statement (.shl x y) := by
  intro r h
  cases Option.some.inj h
  exact maskMinor_formatXyn _ _ _ _

theorem sneReg (x : Reg) (y : Reg) : Statement (.sneReg x y) := by
  intro r h
  cases Option.some.inj h
  exact maskMinor_formatXyn _ _ _ _

theorem ldI (nnn : Addr12) : Statement (.ldI nnn) := by
  intro r h
  cases Option.some.inj h
  exact maskMajor_formatNnn _ _

theorem jpV0 (nnn : Addr12) : Statement (.jpV0 nnn) := by
  intro r h
  cases Option.some.inj h
  exact maskMajor_formatNnn _ _

theorem rnd (x : Reg) (kk : Byte) : Statement (.rnd x kk) := by
  intro r h
  cases Option.some.inj h
  exact maskMajor_formatXkk _ _ _

theorem drw (x : Reg) (y : Reg) (n : Nibble) : Statement (.drw x y n) := by
  intro r h
  cases Option.some.inj h
  exact maskMajor_formatXyn _ _ _ _

theorem skp (x : Reg) : Statement (.skp x) := by
  intro r h
  cases Option.some.inj h
  exact maskByte_formatXkk _ _ _

theorem sknp (x : Reg) : Statement (.sknp x) := by
  intro r h
  cases Option.some.inj h
  exact maskByte_formatXkk _ _ _

theorem ldVxDt (x : Reg) : Statement (.ldVxDt x) := by
  intro r h
  cases Option.some.inj h
  exact maskByte_formatXkk _ _ _

theorem ldVxK (x : Reg) : Statement (.ldVxK x) := by
  intro r h
  cases Option.some.inj h
  exact maskByte_formatXkk _ _ _

theorem ldDtVx (x : Reg) : Statement (.ldDtVx x) := by
  intro r h
  cases Option.some.inj h
  exact maskByte_formatXkk _ _ _

theorem ldStVx (x : Reg) : Statement (.ldStVx x) := by
  intro r h
  cases Option.some.inj h
  exact maskByte_formatXkk _ _ _

theorem addI (x : Reg) : Statement (.addI x) := by
  intro r h
  cases Option.some.inj h
  exact maskByte_formatXkk _ _ _

theorem ldFont (x : Reg) : Statement (.ldFont x) := by
  intro r h
  cases Option.some.inj h
  exact maskByte_formatXkk _ _ _

theorem storeBcd (x : Reg) : Statement (.storeBcd x) := by
  intro r h
  cases Option.some.inj h
  exact maskByte_formatXkk _ _ _

theorem storeRegs (x : Reg) : Statement (.storeRegs x) := by
  intro r h
  cases Option.some.inj h
  exact maskByte_formatXkk _ _ _

theorem loadRegs (x : Reg) : Statement (.loadRegs x) := by
  intro r h
  cases Option.some.inj h
  exact maskByte_formatXkk _ _ _

theorem undef (w : Word) : Statement (.undef w) := by
  intro r h
  exact nomatch (show (none : Option OpcodeRow) = some r from h)

end Sys2Proof.Laws.RowMatch
end

