-- ==== Sys2Proof/Tests/Slice0.lean ====
section
/-! SUPPORT. Tests of the model. Every expected value is the spec's own: the patterns of `30_encoding.md` rule R85, the
examples of the instruction rules, and the vectors S and T of `95_test_vectors.md`, named beside each test. The
witnesses show, for each statement with hypotheses, a concrete state and operands that meet them together. -/

namespace Sys2Proof.Tests

open Sys2Proof Sys2Proof.Machine

/-! ### Helpers -/

/-- The reset machine with some registers set. -/
def withRegs (l : List (Reg × Byte)) : State := l.foldl (fun s p => s.setReg p.1 p.2) State.reset

/-- A machine with some registers set and `I` set. -/
def withIndex (l : List (Reg × Byte)) (i : Word) : State := (withRegs l).setIndex i

/-- A 4 by 4 display (vectors T151, T152). -/
def tiny : State := { State.reset with config := { Config.canonical with width := 4, height := 4 } }

/-- A machine whose Input Port delivers one sample. -/
def withKeys (l : List (Reg × Byte)) (keys : BitVec 256) : State :=
  { withRegs l with ports := { Ports.initial with keySamples := [keys] } }

/-- A machine whose random port delivers one byte. -/
def withRand (r : Byte) : State := { State.reset with ports := { Ports.initial with randBytes := [r] } }

/-- What a step or a meaning leaves, seen through `f`; none if it stopped. -/
def after {α : Type} (o : Result) (f : State → α) : Option α :=
  match o with
  | .next t => some (f t)
  | .fault _ => none
  | .refused _ => none

/-! ### Well-formedness: a term each check refuses -/

theorem test_wellFormed_refuses_sys_of_CLS : (Instr.sys 0x0E0).wellFormed = false := by decide
theorem test_wellFormed_refuses_sys_of_RET : (Instr.sys 0x0EE).wellFormed = false := by decide
theorem test_wellFormed_refuses_undef_of_defined : (Instr.undef 0x6A05).wellFormed = false := by decide
theorem test_wellFormed_accepts : (Instr.sys 0x0E1).wellFormed = true ∧ (Instr.undef 0x5121).wellFormed = true := by
  decide

/-! ### Decoding: a word of every row, written out nibble by nibble from the pattern of rule R85 -/

theorem test_decode_control :
    decode 0b0000000011100000 = .cls ∧ decode 0b0000000011101110 = .ret ∧ decode 0b0000000100100011 = .sys 0x123 ∧
    decode 0b0001001000110100 = .jp 0x234 ∧ decode 0b0010001100000000 = .call 0x300 ∧
    decode 0b1011111111111111 = .jpV0 0xFFF := by decide

theorem test_decode_skips :
    decode 0b0011001100101010 = .seImm 0x3 0x2A ∧ decode 0b0100001100101011 = .sneImm 0x3 0x2B ∧
    decode 0b0101000100100000 = .seReg 0x1 0x2 ∧ decode 0b1001000100100000 = .sneReg 0x1 0x2 := by decide

theorem test_decode_alu :
    decode 0b0110101000000101 = .ldImm 0xA 0x05 ∧ decode 0b0111101000001011 = .addImm 0xA 0x0B ∧
    decode 0b1000000100100000 = .ldReg 1 2 ∧ decode 0b1000000100100001 = .orReg 1 2 ∧
    decode 0b1000000100100010 = .andReg 1 2 ∧ decode 0b1000000100100011 = .xorReg 1 2 ∧
    decode 0b1000101010110100 = .addReg 0xA 0xB ∧ decode 0b1000000100100101 = .subReg 1 2 ∧
    decode 0b1000000100100110 = .shr 1 2 ∧ decode 0b1000000100100111 = .subnReg 1 2 ∧
    decode 0b1000000100101110 = .shl 1 2 ∧ decode 0b1100000100001111 = .rnd 1 0x0F := by decide

theorem test_decode_index_memory_display :
    decode 0b1010001100000000 = .ldI 0x300 ∧ decode 0b1111001000011110 = .addI 2 ∧
    decode 0b1111000000101001 = .ldFont 0 ∧ decode 0b1111000000110011 = .storeBcd 0 ∧
    decode 0b1111000101010101 = .storeRegs 1 ∧ decode 0b1111001001100101 = .loadRegs 2 ∧
    decode 0b1101101010110001 = .drw 0xA 0xB 1 := by decide

theorem test_decode_keys_timers :
    decode 0b1110000110011110 = .skp 1 ∧ decode 0b1110000110100001 = .sknp 1 ∧
    decode 0b1111001000000111 = .ldVxDt 2 ∧ decode 0b1111001100001010 = .ldVxK 3 ∧
    decode 0b1111001000010101 = .ldDtVx 2 ∧ decode 0b1111001000011000 = .ldStVx 2 := by decide

/-- T4 to T6: words that match no row. -/
theorem test_decode_undefined :
    decode 0x5121 = .undef 0x5121 ∧ decode 0x9121 = .undef 0x9121 ∧ decode 0x8128 = .undef 0x8128 ∧
    decode 0x812F = .undef 0x812F ∧ decode 0xE100 = .undef 0xE100 ∧ decode 0xE19F = .undef 0xE19F ∧
    decode 0xF100 = .undef 0xF100 ∧ decode 0xF1FF = .undef 0xF1FF ∧ decode 0xFFFF = .undef 0xFFFF := by decide

/-- Rule R84: rows 00E0 and 00EE stand inside 0nnn, and no other two rows of the opcode map share a word. -/
theorem test_opcode_rows_disjoint :
    (opcodeTable.drop 2).Pairwise (fun r r' => (r.value ^^^ r'.value) &&& r.mask &&& r'.mask ≠ 0) ∧
    opcodeTable.length = 35 := by decide

/-- T1: the first byte is the high byte; a single byte is rejected by name. -/
theorem test_decode_bytes :
    (match decodeBytes [0x6A, 0x05, 0x7A] with | .ok r => some r | .error _ => none) =
      some (.ldImm 0xA 0x05, [0x7A]) ∧
    (match decodeBytes [0x6A] with | .ok _ => none | .error e => some e) = some .truncated := by decide

theorem test_decode_table_word : decodeTableWord 16 0xDAB1 = some (.drw 0xA 0xB 1) := by decide

/-! ### The cycle -/

/-- T1. -/
theorem test_step_runs_placed_word :
    after (step (State.reset.withFetchWord 16 0x6A05)) (fun t => (t.reg 0xA, t.pc)) = some (5, 0x202) := by decide

/-- T2: an odd `pc` fetches like any other. -/
theorem test_step_odd_pc :
    after (step ((((State.reset.setPc 0x201).writeMem 0x201 0x05).writeMem 0x202 0x7A))) (fun t => t.pc) =
      some 0x203 := by decide

/-- T7. -/
theorem test_step_last_slot :
    after (step (((State.reset.setPc 0xFFE).writeMem 0xFFF 0xE0))) (fun t => (t.pc, t.status)) =
      some (0x1000, .running) := by decide

/-- T8. -/
theorem test_step_fetch_fault :
    after (step (State.reset.setPc 0xFFF)) (fun t => (t.pc, t.status)) =
      some (0xFFF, .faulted (.fetchOutOfBounds 0xFFF) 0xFFF) := by decide

/-- F1: the state a fault leaves. -/
theorem test_step_underflow :
    after (step (State.reset.withFetchWord 16 0x00EE)) (fun t => (t.pc, t.sp, t.status)) =
      some (0x200, 0, .faulted .stackUnderflow 0x200) := by decide

/-- F2: a STEP of a faulted machine changes nothing (rule R213). -/
theorem test_step_while_faulted :
    after (step (State.reset.takeFault .stackOverflow 0x200)) (fun t => (t.pc, t.status)) =
      some (0x200, .faulted .stackOverflow 0x200) := by decide

/-- Rule R12: a requested TICK is the next operation. -/
theorem test_step_requested_tick :
    after (step ((State.reset.setSt 2).setRequests [.tick, .step])) (fun t => (t.st, t.tone, t.ports.requests, t.pc)) =
      some (1, true, [.step], 0x200) := by decide

/-! ### Control flow -/

/-- T10. -/
theorem test_sys : after (exec (.sys 0x123) (State.reset.setPc 0x202)) (fun t => t.pc) = some 0x202 := by decide

/-- T11. -/
theorem test_jp : after (exec (.jp 0x234) State.reset) (fun t => t.pc) = some 0x234 := by decide

/-- T14. -/
theorem test_se_imm :
    after (exec (.seImm 3 0x2A) ((withRegs [(3, 0x2A)]).setPc 0x202)) (fun t => t.pc) = some 0x204 ∧
    after (exec (.seImm 3 0x2B) ((withRegs [(3, 0x2A)]).setPc 0x202)) (fun t => t.pc) = some 0x202 := by decide

/-- T15. -/
theorem test_sne_imm :
    after (exec (.sneImm 3 0x2A) ((withRegs [(3, 0x2A)]).setPc 0x202)) (fun t => t.pc) = some 0x202 ∧
    after (exec (.sneImm 3 0x2B) ((withRegs [(3, 0x2A)]).setPc 0x202)) (fun t => t.pc) = some 0x204 := by decide

/-- T16. -/
theorem test_se_reg :
    after (exec (.seReg 1 2) ((withRegs [(1, 7), (2, 7)]).setPc 0x202)) (fun t => t.pc) = some 0x204 ∧
    after (exec (.seReg 1 2) ((withRegs [(1, 7), (2, 8)]).setPc 0x202)) (fun t => t.pc) = some 0x202 := by decide

/-- T17. -/
theorem test_sne_reg :
    after (exec (.sneReg 1 2) ((withRegs [(1, 7), (2, 8)]).setPc 0x202)) (fun t => t.pc) = some 0x204 ∧
    after (exec (.sneReg 1 2) ((withRegs [(1, 7), (2, 7)]).setPc 0x202)) (fun t => t.pc) = some 0x202 := by decide

/-- T20. -/
theorem test_call_sixteenth :
    after (exec (.call 0x300) { State.reset.setPc 0x206 with sp := 15 }) (fun t => (t.stack[15], t.sp, t.pc)) =
      some (0x206, 16, 0x300) := by decide

/-- T21. -/
theorem test_call_overflow :
    after (exec (.call 0x300) { State.reset.setPc 0x206 with sp := 16 }) (fun t => (t.sp, t.pc, t.status)) =
      some (16, 0x204, .faulted .stackOverflow 0x204) := by decide

/-- T22: the popped entry keeps its value. -/
theorem test_ret :
    after (exec .ret { State.reset with sp := 1, stack := State.reset.stack.set 0 0x206 })
      (fun t => (t.sp, t.pc, t.stack[0])) = some (0, 0x206, 0x206) := by decide

/-- T25, T26. -/
theorem test_jp_v0 :
    after (exec (.jpV0 0xFFF) (withRegs [(0, 0xFF)])) (fun t => t.pc) = some 0x10FE ∧
    after (exec (.jpV0 0x300) (withRegs [(0, 1), (3, 0x80)])) (fun t => t.pc) = some 0x301 := by decide

/-- T5. -/
theorem test_undef : after (exec (.undef 0x9121) ((withRegs [(1, 7), (2, 8)]).setPc 0x202)) (fun t => t.pc) =
    some 0x202 := by decide

/-! ### Register instructions -/

/-- T30. -/
theorem test_ld_imm : after (exec (.ldImm 0xF 0x80) State.reset) (fun t => t.reg VF) = some 0x80 := by decide

/-- T31, T33. -/
theorem test_add_imm :
    after (exec (.addImm 1 1) (withRegs [(1, 0xFF)])) (fun t => (t.reg 1, t.reg VF)) = some (0, 0) ∧
    after (exec (.addImm 0xF 0xFF) (withRegs [(0xF, 5)])) (fun t => t.reg VF) = some 4 := by decide

/-- T36. -/
theorem test_ld_reg : after (exec (.ldReg 3 0xF) (withRegs [(0xF, 1)])) (fun t => t.reg 3) = some 1 := by decide

/-- T37. -/
theorem test_or : after (exec (.orReg 1 2) (withRegs [(1, 0xF0), (2, 0x0F), (0xF, 1)]))
    (fun t => (t.reg 1, t.reg VF)) = some (0xFF, 1) := by decide

/-- T38. -/
theorem test_and : after (exec (.andReg 1 2) (withRegs [(1, 0xF0), (2, 0x3C), (0xF, 1)]))
    (fun t => (t.reg 1, t.reg VF)) = some (0x30, 1) := by decide

/-- T39. -/
theorem test_xor : after (exec (.xorReg 1 2) (withRegs [(1, 0xF0), (2, 0x3C), (0xF, 1)]))
    (fun t => (t.reg 1, t.reg VF)) = some (0xCC, 1) := by decide

/-- S6. -/
theorem test_add_reg :
    after (exec (.addReg 0xA 0xB) (withRegs [(0xA, 250), (0xB, 10)])) (fun t => (t.reg 0xA, t.reg VF)) = some (4, 1) ∧
    after (exec (.addReg 0xA 0xB) (withRegs [(0xA, 10), (0xB, 5)])) (fun t => (t.reg 0xA, t.reg VF)) =
      some (15, 0) := by decide

/-- T74, T76: `VF` as an operand of the addition. -/
theorem test_add_reg_vf :
    after (exec (.addReg 0xF 1) (withRegs [(0xF, 200), (1, 100)])) (fun t => t.reg VF) = some 44 ∧
    after (exec (.addReg 1 0xF) (withRegs [(1, 100), (0xF, 200)])) (fun t => (t.reg 1, t.reg VF)) = some (44, 1) := by
  decide

/-- T55, T56. -/
theorem test_sub_reg :
    after (exec (.subReg 1 2) (withRegs [(1, 3), (2, 10)])) (fun t => (t.reg 1, t.reg VF)) = some (249, 0) ∧
    after (exec (.subReg 1 2) (withRegs [(1, 7), (2, 7)])) (fun t => (t.reg 1, t.reg VF)) = some (0, 0) := by decide

/-- T78, T81 (decision D8). -/
theorem test_sub_reg_vf :
    after (exec (.subReg 0xF 1) (withRegs [(0xF, 10), (1, 3)])) (fun t => t.reg VF) = some 254 ∧
    after (exec (.subReg 1 0xF) (withRegs [(1, 10), (0xF, 3)])) (fun t => (t.reg 1, t.reg VF)) = some (9, 1) := by
  decide

/-- T64, T93. -/
theorem test_shr :
    after (exec (.shr 1 2) (withRegs [(1, 5), (2, 0xFF)])) (fun t => (t.reg 1, t.reg VF)) = some (2, 1) ∧
    after (exec (.shr 0xF 2) (withRegs [(0xF, 3), (2, 0xFF)])) (fun t => (t.reg VF, t.reg 2)) = some (0, 0xFF) := by
  decide

/-- T60, T61. -/
theorem test_subn_reg :
    after (exec (.subnReg 1 2) (withRegs [(1, 3), (2, 10)])) (fun t => (t.reg 1, t.reg VF)) = some (7, 1) ∧
    after (exec (.subnReg 1 2) (withRegs [(1, 10), (2, 3)])) (fun t => (t.reg 1, t.reg VF)) = some (249, 0) := by decide

/-- T84, T86 (decision D8). -/
theorem test_subn_reg_vf :
    after (exec (.subnReg 0xF 1) (withRegs [(0xF, 3), (1, 10)])) (fun t => t.reg VF) = some 9 ∧
    after (exec (.subnReg 1 0xF) (withRegs [(1, 3), (0xF, 10)])) (fun t => (t.reg 1, t.reg VF)) = some (254, 1) := by
  decide

/-- T69, T92. -/
theorem test_shl :
    after (exec (.shl 1 2) (withRegs [(1, 0x81)])) (fun t => (t.reg 1, t.reg VF)) = some (2, 1) ∧
    after (exec (.shl 0xF 0) (withRegs [(0xF, 0xFF)])) (fun t => t.reg VF) = some 2 := by decide

/-- T100. -/
theorem test_rnd : after (exec (.rnd 1 0x0F) (withRand 0xB7)) (fun t => (t.reg 1, t.ports.randBytes)) =
    some (0x07, []) := by decide

/-! ### Index register and memory -/

/-- T111. -/
theorem test_ld_i : after (exec (.ldI 0xFFF) State.reset) (fun t => t.index) = some 0x0FFF := by decide

/-- T113, T115. -/
theorem test_add_i :
    after (exec (.addI 0) (withIndex [(0, 1)] 0x0FFF)) (fun t => (t.index, t.reg VF)) = some (0x1000, 0) ∧
    after (exec (.addI 0) (withIndex [(0, 1)] 0xFFFF)) (fun t => t.index) = some 0 := by decide

/-- T116, T118. -/
theorem test_ld_font :
    after (exec (.ldFont 0) (withRegs [(0, 0x0A)])) (fun t => t.index) = some 0x0032 ∧
    after (exec (.ldFont 0) (withRegs [(0, 0xFF)])) (fun t => t.index) = some 0x04FB := by decide

/-- T119. -/
theorem test_store_bcd :
    after (exec (.storeBcd 0) (withIndex [(0, 254)] 0x300))
      (fun t => (t.readMem 0x300, t.readMem 0x301, t.readMem 0x302)) = some (2, 5, 4) := by decide

/-- T122: no partial store. -/
theorem test_store_bcd_fault :
    after (exec (.storeBcd 0) ((withIndex [(0, 7)] 0xFFE).setPc 0x202)) (fun t => (t.mem, t.status)) =
      some ([], .faulted (.memoryOutOfBounds 0x1000) 0x200) := by decide

/-- T123. -/
theorem test_store_regs :
    after (exec (.storeRegs 1) (withIndex [(0, 0xC3), (1, 0x81)] 0x300)) (fun t => (t.mem, t.index)) =
      some ([(0x300, 0xC3), (0x301, 0x81)], 0x300) := by decide

/-- T129. -/
theorem test_store_regs_fault :
    after (exec (.storeRegs 0) ((withIndex [] 0x10FE).setPc 0x202)) (fun t => t.status) =
      some (.faulted (.memoryOutOfBounds 0x10FE) 0x200) := by decide

/-- T127. -/
theorem test_load_regs :
    after (exec (.loadRegs 2) (((((withIndex [(3, 9)] 0x300).writeMem 0x300 2).writeMem 0x301 5).writeMem 0x302 4)))
      (fun t => (t.reg 0, t.reg 1, t.reg 2, t.reg 3)) = some (2, 5, 4, 9) := by decide

/-- T128. -/
theorem test_load_regs_fault :
    after (exec (.loadRegs 0xF) ((withIndex [(0, 1)] 0xFF1).setPc 0x202)) (fun t => (t.reg 0, t.status)) =
      some (1, .faulted (.memoryOutOfBounds 0x1000) 0x200) := by decide

/-! ### Display -/

/-- T140. -/
theorem test_cls : after (exec .cls (State.reset.setFb [(0, 0x80)])) (fun t => (t.fb, t.getPixel 0 0)) =
    some ([], false) := by decide

/-- S8: a sprite byte 0xFF at x = 62 wraps to columns 0 to 5 of the same row. -/
theorem test_drw_wraps :
    after (exec (.drw 0xA 0xB 1) ((withIndex [(0xA, 62)] 0x300).writeMem 0x300 0xFF)) (fun t => (t.fb, t.reg VF)) =
      some ([(0, 0xFC), (7, 0x03)], 0) := by decide

/-- T151: on a 4 by 4 display each pixel is flipped twice and the second visit collides. -/
theorem test_drw_tiny :
    after (exec (.drw 0 0 1) ((tiny.setIndex 0x300).writeMem 0x300 0xFF)) (fun t => (t.fb, t.reg VF)) =
      some ([], 1) := by decide

/-- T148: the origin is read before `VF` is reset. -/
theorem test_drw_vf_origin :
    after (exec (.drw 0xF 0xF 1) (((withIndex [(0xF, 7)] 0x300).writeMem 0x300 0x80)))
      (fun t => (t.getPixel 7 7, t.reg VF)) = some (true, 0) := by decide

/-- T149, T150. -/
theorem test_drw_bound :
    after (exec (.drw 0xF 0xF 2) ((withIndex [(0xF, 7)] 0xFFF).setPc 0x202)) (fun t => (t.reg VF, t.status)) =
      some (7, .faulted (.memoryOutOfBounds 0x1000) 0x200) ∧
    after (exec (.drw 0xF 0xF 0) ((withIndex [(0xF, 7)] 0xFFF).setPc 0x202)) (fun t => (t.reg VF, t.status)) =
      some (0, .running) := by decide

/-- S1. -/
theorem test_set_get :
    setPixel Config.canonical [] 63 31 true = [(255, 0x01)] ∧ setPixel Config.canonical [] 64 0 true = [] ∧
    getPixel Config.canonical [(0, 0x80)] 0 0 = true ∧ getPixel Config.canonical [(0, 0x80)] 64 0 = false := by decide

/-- S2. -/
theorem test_draw_primitive :
    drawClipped Config.canonical [(0, 0xA5)] 0 0 [0x3C] = [(0, 0x99)] ∧
    drawClipped Config.canonical [(0, 0x99)] 0 0 [0x3C] = [(0, 0xA5)] := by decide

/-! ### Keys and timers -/

/-- T160, T164. -/
theorem test_skp :
    after (exec (.skp 1) ((withKeys [(1, 7)] 0x80).setPc 0x202)) (fun t => t.pc) = some 0x204 ∧
    after (exec (.skp 1) ((withKeys [(1, 0x17)] 0xFFFF).setPc 0x202)) (fun t => t.pc) = some 0x202 := by decide

/-- T162, T163. -/
theorem test_sknp :
    after (exec (.sknp 1) ((withKeys [(1, 7)] 0).setPc 0x202)) (fun t => t.pc) = some 0x204 ∧
    after (exec (.sknp 1) ((withKeys [(1, 7)] 0x80).setPc 0x202)) (fun t => t.pc) = some 0x202 := by decide

/-- T165, T166. -/
theorem test_ld_vx_k :
    after (exec (.ldVxK 3) ((withKeys [] 0).setPc 0x202)) (fun t => (t.pc, t.reg 3)) = some (0x200, 0) ∧
    after (exec (.ldVxK 3) ((withKeys [] 0x210).setPc 0x202)) (fun t => (t.pc, t.reg 3)) = some (0x202, 4) := by decide

/-- T168. -/
theorem test_ld_vx_dt : after (exec (.ldVxDt 2) (State.reset.setDt 0x3C)) (fun t => (t.reg 2, t.dt)) =
    some (0x3C, 0x3C) := by decide

/-- T169. -/
theorem test_ld_dt_vx : after (exec (.ldDtVx 2) (withRegs [(2, 0x3C)])) (fun t => t.dt) = some 0x3C := by decide

/-- T170. -/
theorem test_ld_st_vx : after (exec (.ldStVx 2) (withRegs [(2, 5)])) (fun t => (t.st, t.tone)) = some (5, false) := by
  decide

/-- T171, T172. -/
theorem test_tick :
    ((tick (State.reset.setSt 1)).st, (tick (State.reset.setSt 1)).tone) = (0, false) ∧
    ((tick (State.reset.setSt 2)).st, (tick (State.reset.setSt 2)).tone) = (1, true) := by decide

/-- T183, the second LOAD: the tail of the first image stays. -/
theorem test_load_keeps_tail :
    (performLoad [0x00, 0xE0] (performLoad [0x60, 0x01, 0x61, 0x02] State.reset)).mem =
      [(0x201, 0xE0), (0x202, 0x61), (0x203, 0x02)] := by decide

/-- Rule R44: the font stands at 0x000 (glyph 0 first) and 0x050 holds 0. -/
theorem test_reset_font : State.reset.readMem 0 = 0xF0 ∧ State.reset.readMem 0x4F = 0x80 ∧
    State.reset.readMem 0x50 = 0 := by decide

/-! ### Witnesses: a state and operands that meet a statement's hypotheses, for each clause, at a boundary -/

theorem witness_DecodeOfEncode :
    (Instr.sys 0x0E1).wellFormed = true ∧ (Instr.undef 0xFFFF).wellFormed = true ∧ Instr.ret.wellFormed = true := by
  decide

theorem witness_BytesDecodeBigEndian : (Instr.drw 0xF 0xF 0xF).wellFormed = true ∧ [(0x6A : Byte)].length < 2 := by
  decide

theorem witness_StepRunsDecodedInstruction :
    (State.reset.setPc 0xFFE).status = .running ∧ (State.reset.setPc 0xFFE).pc.toNat + 1 < 4096 ∧
    decode ((State.reset.setPc 0xFFE).readMem 0xFFE ++ (State.reset.setPc 0xFFE).readMem 0xFFF) = .sys 0 ∧
    (State.reset.setPc 0xFFE).ports.requests = [] ∧
    ((State.reset.setPc 0xFFE).setRequests [.step]).ports.requests = .step :: [] := by decide

/-- Both clauses, at 0xFFF, the least `pc` that faults. -/
theorem witness_FetchPastEndFaults :
    (State.reset.setPc 0xFFF).status = .running ∧ 4096 ≤ (State.reset.setPc 0xFFF).pc.toNat + 1 ∧
    (State.reset.setPc 0xFFF).ports.requests = [] ∧
    ((State.reset.setPc 0xFFF).setRequests [.step, .tick]).status = .running ∧
    ((State.reset.setPc 0xFFF).setRequests [.step, .tick]).ports.requests = .step :: [.tick] := by decide

/-- A LOAD of one byte succeeds, one of 3585 bytes fails; the other clauses need only the head of the list. -/
theorem witness_RequestsRunInOrder :
    (State.reset.setRequests [.load [0x60]]).ports.requests = .load [0x60] :: [] ∧
    (∃ t, load [0x60] (State.reset.setRequests []) = .ok t) ∧
    (∃ e, load (List.replicate 3585 0) (State.reset.setRequests []) = .error e) ∧
    (State.reset.setRequests [.tick]).ports.requests = .tick :: [] ∧
    (State.reset.setRequests [.reset]).ports.requests = .reset :: [] ∧
    (State.reset.setRequests [.step]).ports.requests = .step :: [] ∧ State.reset.ports.requests = [] :=
  ⟨rfl, ⟨_, rfl⟩, ⟨.romTooLarge, if_pos (by rw [List.length_replicate]; decide)⟩, rfl, rfl, rfl, rfl⟩

/-- Ready, and with a STEP requested before a TICK; running after, and faulted after. -/
theorem witness_PcAfterStep :
    State.reset.status = .running ∧ State.reset.StepNext ∧ (∃ t, step State.reset = .next t ∧ t.status = .running) ∧
    ((State.reset.setPc 0x1000).setRequests [.step, .tick]).status = .running ∧
    ((State.reset.setPc 0x1000).setRequests [.step, .tick]).StepNext ∧
    (∃ t, step ((State.reset.setPc 0x1000).setRequests [.step, .tick]) = .next t ∧ t.status ≠ .running) :=
  ⟨rfl, .inl rfl, ⟨_, rfl, by decide⟩, rfl, .inr ⟨_, rfl⟩, ⟨_, rfl, by decide⟩⟩

theorem witness_FaultsArePrecise :
    (State.reset.withFetchWord 16 0x00EE).status = .running ∧ (State.reset.withFetchWord 16 0x00EE).StepNext ∧
    (∃ t, step (State.reset.withFetchWord 16 0x00EE) = .next t ∧ t.status ≠ .running) ∧
    ((State.reset.withFetchWord 16 0x00EE).setRequests [.step, .tick]).StepNext ∧
    (∃ t, step ((State.reset.withFetchWord 16 0x00EE).setRequests [.step, .tick]) = .next t ∧ t.status ≠ .running) :=
  ⟨rfl, .inl rfl, ⟨_, rfl, by decide⟩, .inr ⟨_, rfl⟩, ⟨_, rfl, by decide⟩⟩

theorem witness_StepFaultsExactlyWhen :
    State.reset.status = .running ∧ State.reset.StepNext ∧ (∃ t, step State.reset = .next t) ∧
    (State.reset.setRequests [.step]).StepNext ∧ ∃ t, step (State.reset.setRequests [.step]) = .next t :=
  ⟨rfl, .inl rfl, ⟨_, rfl⟩, .inr ⟨_, rfl⟩, ⟨_, rfl⟩⟩

theorem witness_FaultsAreSticky :
    (State.reset.takeFault .stackOverflow 0x200).status = .faulted .stackOverflow 0x200 ∧
    (State.reset.takeFault .stackOverflow 0x200).ports.requests = [] ∧
    ((State.reset.takeFault .stackOverflow 0x200).setRequests [.step, .tick]).ports.requests = .step :: [.tick] ∧
    (∀ rest, ((State.reset.takeFault .stackOverflow 0x200).setRequests [.tick]).ports.requests ≠ .reset :: rest) ∧
    ∃ t, step ((State.reset.takeFault .stackOverflow 0x200).setRequests [.tick]) = .next t :=
  ⟨rfl, rfl, rfl, fun _ h => (by cases h), ⟨_, rfl⟩⟩

theorem witness_ExecFrame : ∃ t, exec (.storeRegs 0xF) (State.reset.setIndex 0xFF0) = .next t := ⟨_, rfl⟩

theorem witness_InputsReachOnlyFourInstructions :
    (∃ t, exec (.ldImm 0 1) State.reset = .next t) ∧ (∀ x kk, Instr.ldImm 0 1 ≠ .rnd x kk) ∧
    (∀ x, Instr.ldImm 0 1 ≠ .skp x) ∧ (∀ x, Instr.ldImm 0 1 ≠ .sknp x) ∧ (∀ x, Instr.ldImm 0 1 ≠ .ldVxK x) :=
  ⟨⟨_, rfl⟩, by simp, by simp, by simp, by simp⟩

theorem witness_OutputsAreNeverRead :
    (∃ t, exec (.ldVxDt 0) State.reset = .next t) ∧ (∀ x, Instr.ldVxDt 0 ≠ .ldStVx x) ∧ Instr.ldVxDt 0 ≠ .cls ∧
    (∀ x y n, Instr.ldVxDt 0 ≠ .drw x y n) := ⟨⟨_, rfl⟩, by simp, by simp, by simp⟩

theorem witness_StepKeepsStorageInvariant :
    State.reset.Inv ∧ (∃ t, step State.reset = .next t) ∧ (State.reset.withFetchWord 16 0xDAB1).Inv :=
  ⟨by decide, ⟨_, rfl⟩, by decide⟩

theorem witness_StepKeepsPcBound :
    (State.reset.setPc 0x10FE).PcBound ∧ ∃ t, step (State.reset.setPc 0x10FE) = .next t := ⟨by decide, ⟨_, rfl⟩⟩

theorem witness_StepKeepsParameters : ∃ t, step tiny = .next t := ⟨_, rfl⟩

theorem witness_ResetMeetsInvariants : configWf Config.canonical = true ∧ configWf tiny.config = true := by decide

theorem witness_ResetState : (0x4F : Nat) < 0x50 ∧ 0x50 ≤ (0x50 : Nat) := by decide

theorem witness_SysIsNoOp : (0x0E1 : Addr12) ≠ 0x0E0 ∧ (0x0E1 : Addr12) ≠ 0x0EE := by decide

theorem witness_UndefinedWordsAreNoOps :
    (State.reset.withFetchWord 16 0x9001).Ready ∧ (State.reset.withFetchWord 16 0x9001).pc.toNat + 1 < 4096 ∧
    decode ((State.reset.withFetchWord 16 0x9001).readMem 0x200 ++ (State.reset.withFetchWord 16 0x9001).readMem 0x201) =
      .undef ((State.reset.withFetchWord 16 0x9001).readMem 0x200 ++
        (State.reset.withFetchWord 16 0x9001).readMem 0x201) := by decide

theorem witness_ReturnPopsPc :
    ({ State.reset with sp := 1 } : State).sp.val = (0 : Fin 16).val + 1 ∧
    ({ State.reset with sp := 16 } : State).sp.val = (15 : Fin 16).val + 1 ∧ State.reset.sp.val = 0 := by decide

theorem witness_JumpSetsPc : State.reset.Ready ∧ ∃ t, exec (.jp 0xFFF) State.reset = .next t := ⟨by decide, ⟨_, rfl⟩⟩

theorem witness_SkipOnImmediate :
    (State.reset.setPc 0xFFE).Ready ∧ 0xFFE ≤ (State.reset.setPc 0xFFE).pc.toNat ∧
    (State.reset.setPc 0xFFE).pc.toNat ≤ 0x1000 ∧
    ((State.reset.setPc 0xFFE).reg 3 = 0 ∧ ∃ t, exec (.seImm 3 0) (State.reset.setPc 0xFFE) = .next t) ∧
    ((State.reset.setPc 0xFFE).reg 3 ≠ 1 ∧ ∃ t, exec (.sneImm 3 1) (State.reset.setPc 0xFFE) = .next t) :=
  ⟨by decide, by decide, by decide, ⟨by decide, ⟨_, rfl⟩⟩, ⟨by decide, ⟨_, rfl⟩⟩⟩

theorem witness_SkipOnRegisters : (1 : Nibble) ≠ 0 ∧ (0xF : Nibble) ≠ 0 := by decide

/-- Both ends of the range: a sum of 0xFFF and the largest, 0x10FE. -/
theorem witness_JumpPlusV0 :
    State.reset.Ready ∧ (∃ t, exec (.jpV0 0xFFF) State.reset = .next t) ∧
    0xFFF ≤ (0xFFF : Addr12).toNat + (State.reset.reg 0).toNat ∧
    (withRegs [(0, 0xFF)]).Ready ∧ (∃ t, exec (.jpV0 0xFFF) (withRegs [(0, 0xFF)]) = .next t) ∧
    0xFFF ≤ (0xFFF : Addr12).toNat + ((withRegs [(0, 0xFF)]).reg 0).toNat :=
  ⟨by decide, ⟨_, rfl⟩, by decide, by decide, ⟨_, rfl⟩, by decide⟩

theorem witness_CallPushesPc :
    State.reset.sp.val = (0 : Fin 16).val ∧ ({ State.reset with sp := 15 } : State).sp.val = (15 : Fin 16).val ∧
    ({ State.reset with sp := 16 } : State).sp.val = 16 := by decide

theorem witness_CallThenReturn : ({ State.reset with sp := 15 } : State).sp.val < 16 := by decide

theorem witness_AddWithCarry : (0xE : Reg) ≠ VF := by decide

/-- All four forms of rule R134, each with the flag the statement names. -/
theorem witness_SubtractWithFlag :
    (1 : Nat) = (if ((withRegs [(1, 10), (2, 3)]).reg 2).toNat < ((withRegs [(1, 10), (2, 3)]).reg 1).toNat then 1 else 0) ∧
    (0 : Nat) = (if (State.reset.reg 0xF).toNat < (State.reset.reg 0xF).toNat then 1 else 0) ∧
    (1 : Reg) ≠ VF ∧ (2 : Reg) ≠ VF ∧ (0xF : Reg) = VF := by decide

theorem witness_SubtractReversedWithFlag :
    (1 : Nat) = (if ((withRegs [(1, 3), (2, 10)]).reg 1).toNat < ((withRegs [(1, 3), (2, 10)]).reg 2).toNat then 1 else 0) ∧
    (0 : Nat) = (if (State.reset.reg 0xF).toNat < (State.reset.reg 0xF).toNat then 1 else 0) ∧
    (1 : Reg) ≠ VF ∧ (2 : Reg) ≠ VF ∧ (0xF : Reg) = VF := by decide

theorem witness_ShiftRight : (0xE : Reg) ≠ VF ∧ (0xF : Reg) = VF := by decide

theorem witness_ShiftLeft : (0xE : Reg) ≠ VF ∧ (0xF : Reg) = VF := by decide

/-- A scripted byte, and a free one. -/
theorem witness_RandomMasked :
    RandDelivered (withRand 0xB7).ports 0xB7 Ports.initial ∧
    RandDelivered State.reset.ports (Config.freeRand 0) { Ports.initial with randDraws := 1 } :=
  ⟨.inl ⟨[], rfl, rfl⟩, .inr ⟨rfl, rfl, rfl⟩⟩

theorem witness_StoreDecimalDigits :
    Memory.wf State.reset.config (State.reset.setIndex 0xFFD).mem = true ∧ (State.reset.setIndex 0xFFD).index.toNat + 2 < 4096 ∧
    4096 ≤ (State.reset.setIndex 0xFFE).index.toNat + 2 := by decide

theorem witness_StoreRegisterBlock :
    Memory.wf State.reset.config (State.reset.setIndex 0xFF0).mem = true ∧
    (State.reset.setIndex 0xFF0).index.toNat + (0xF : Reg).toNat < 4096 ∧ (0 : Reg).toNat ≤ (0xF : Reg).toNat ∧
    4096 ≤ (State.reset.setIndex 0xFF1).index.toNat + (0xF : Reg).toNat := by decide

theorem witness_LoadRegisterBlock :
    (State.reset.setIndex 0xFFF).index.toNat + (0 : Reg).toNat < 4096 ∧ (0 : Reg).toNat ≤ (0 : Reg).toNat ∧
    4096 ≤ (State.reset.setIndex 0xFFF).index.toNat + (1 : Reg).toNat := by decide

/-- The store covers both bytes of the next instruction (program P5), its second byte alone, its first byte alone at
the top of memory, and neither. -/
theorem witness_StoreSeenByNextFetch :
    (∀ i, ((State.reset.setIndex i).setPc 0x208).Ready ∧
      Memory.wf State.reset.config ((State.reset.setIndex i).setPc 0x208).mem = true) ∧
    0x208 + 1 < 4096 ∧ 0x208 + 2 < 4096 ∧ 0x209 + 2 < 4096 ∧ 0x300 + 2 < 4096 ∧
    ((State.reset.setIndex 0xFFC).setPc 0xFFE).Ready ∧ ((State.reset.setIndex 0xFFC).setPc 0xFFE).pc.toNat + 1 < 4096 ∧
    ((State.reset.setIndex 0xFFC).setPc 0xFFE).index.toNat + 2 < 4096 ∧
    ((State.reset.setIndex 0xFFC).setPc 0xFFE).index.toNat + (2 : Reg).toNat < 4096 :=
  ⟨fun _ => ⟨⟨rfl, rfl⟩, rfl⟩, by decide, by decide, by decide, by decide, ⟨rfl, rfl⟩, by decide, by decide, by decide⟩

/-- Rules R65, R154: `Fx33` of 24 at 0x208 leaves 0, 2, 4 at 0x208 to 0x20A, so the fetch at 0x20A sees the stored 4 and
the old byte of 0x20B. -/
theorem test_store_seen_one_byte :
    after (exec (.storeBcd 1) (((withIndex [(1, 24)] 0x208).writeMem 0x20B 0x11).setPc 0x20A))
      (fun t => (t.fetchWord, t.readMem 0x209)) = some (0x0411, 2) := by decide

theorem witness_DrawFlipsVisitedPixels :
    (tiny.setIndex 0xFFF).Inv ∧ (tiny.setIndex 0xFFF).index.toNat + (1 : Nibble).toNat - 1 < 4096 ∧
    (tiny.setIndex 0xFFFF).Inv ∧ (0 : Nibble) = 0 ∧
    0 < (2 : Nibble).toNat ∧ 4096 ≤ (tiny.setIndex 0xFFF).index.toNat + (2 : Nibble).toNat - 1 := by decide

theorem witness_DrawXorsSprite :
    State.reset.Inv ∧ 8 ≤ State.reset.config.width ∧ (0xF : Nibble).toNat ≤ State.reset.config.height ∧
    State.reset.index.toNat + (0xF : Nibble).toNat - 1 < 4096 ∧ 14 < (0xF : Nibble).toNat ∧ 7 < 8 := by decide

theorem witness_DrawTwiceRestores :
    tiny.Inv ∧ (0 : Reg) ≠ VF ∧ (0xE : Reg) ≠ VF ∧ tiny.index.toNat + (5 : Nibble).toNat - 1 < 4096 := by decide

theorem witness_SetThenGetPixel :
    bufferWf Config.canonical [(0, 0x80), (255, 0x01)] = true ∧ 63 < Config.canonical.width ∧
    31 < Config.canonical.height ∧ (Config.canonical.width ≤ 64 ∨ Config.canonical.height ≤ 0) := by decide

theorem witness_ClippedDrawXorsAndInverts : bufferWf Config.canonical [(0, 0xA5)] = true := by decide

/-- A scripted sample, and a free one. -/
theorem witness_KeySkips :
    KeysDelivered (withKeys [(1, 7)] 0x80).ports 0x80 Ports.initial ∧
    KeysDelivered State.reset.ports (Config.freeKeys 0) { Ports.initial with keyDraws := 1 } :=
  ⟨.inl ⟨[], rfl, rfl⟩, .inr ⟨rfl, rfl, rfl⟩⟩

/-- No key of the keyspace down (only key 16 is), and the last key alone down. -/
theorem witness_WaitForKey :
    (KeysDelivered (withKeys [] 0x10000).ports 0x10000 Ports.initial ∧
      ∀ j, j < (withKeys [] 0x10000).config.keyspace → (0x10000 : BitVec 256).getLsbD j = false) ∧
    KeysDelivered (withKeys [] 0x8000).ports 0x8000 Ports.initial ∧ 15 < (withKeys [] 0x8000).config.keyspace ∧
    (0x8000 : BitVec 256).getLsbD 15 = true ∧ (∀ j, j < 15 → (0x8000 : BitVec 256).getLsbD j = false) :=
  ⟨⟨.inl ⟨[], rfl, rfl⟩, by decide⟩, .inl ⟨[], rfl, rfl⟩, by decide, by decide, by decide⟩

theorem witness_TimerInstructions : (0 : Nat) < 1 ∧ (0 : Nat) < 255 := by decide

theorem witness_TicksReachZeroAndStay : (0 : Nat) < 1 := by decide

theorem witness_LoadPlacesImage :
    Memory.wf State.reset.config State.reset.mem = true ∧ (List.replicate 3584 (0 : Byte)).length ≤ 3584 ∧
    3583 < (List.replicate 3584 (0 : Byte)).length ∧ 3584 < (List.replicate 3585 (0 : Byte)).length :=
  ⟨rfl, by rw [List.length_replicate], by rw [List.length_replicate]; decide, by rw [List.length_replicate]; decide⟩

theorem witness_EmptyMachineIdlesThenFaults : (1792 : Nat) ≤ 1792 := by decide

theorem witness_SelfJumpIsFixedPoint :
    (State.reset.withFetchWord 16 0x1200).Ready ∧ (State.reset.withFetchWord 16 0x1200).atSelfJump = true := by decide

theorem witness_BootRunsFirstWord :
    (List.replicate 3582 (0 : Byte)).length ≤ 3582 ∧
    ((State.reset.takeFault .stackOverflow 0x200).setRequests
      [.reset, .load (0x12 :: 0x00 :: List.replicate 3582 0), .step]).ports.requests =
        .reset :: .load (0x12 :: 0x00 :: List.replicate 3582 0) :: .step :: [] := ⟨by rw [List.length_replicate], rfl⟩

end Sys2Proof.Tests
end

section
/-! SUPPORT. Padding bits of the packed buffer (`10_state.md` rules R35, R36): no pixel stands in one, so no flip sets
one. -/

namespace Sys2Proof.Machine

/-- A read finds a listed byte or what an unlisted address reads as. -/
theorem readCells_cases (d : Nat → Byte) (l : List Host.Cell) (a : Nat) :
    readCells d l a = d a ∨ (a, readCells d l a) ∈ l := by
  induction l with
  | nil => exact .inl rfl
  | cons cell rest ih =>
    obtain ⟨k, c⟩ := cell
    by_cases h : a = k
    · simp [readCells, h]
    · simp only [readCells, if_neg h]
      exact ih.imp_right (List.mem_cons_of_mem _)

/-- A write lists no new cell but the one written. -/
theorem mem_writeCells {d : Nat → Byte} {l : List Host.Cell} {a : Nat} {b : Byte} {cell : Host.Cell}
    (h : cell ∈ writeCells d l a b) : cell = (a, b) ∨ cell ∈ l := by
  induction l with
  | nil =>
    simp only [writeCells] at h
    split at h <;> simp_all
  | cons head rest ih =>
    obtain ⟨k, c⟩ := head
    simp only [writeCells] at h
    split at h
    · split at h
      · exact .inr h
      · exact List.mem_cons.1 h
    · split at h
      · split at h
        · exact .inr (List.mem_cons_of_mem _ h)
        · exact (List.mem_cons.1 h).imp_right (List.mem_cons_of_mem _)
      · rcases List.mem_cons.1 h with rfl | hr
        · exact .inr List.mem_cons_self
        · exact (ih hr).imp_right (List.mem_cons_of_mem _)

/-- If buffer byte `k` is the last of its row, then the bits of `b` that stand for no pixel there are 0 (rule R36). -/
def BytePaddingClear (c : Config) (k : Nat) (b : Byte) : Prop :=
  k % rowBytes c + 1 = rowBytes c → ∀ j, j < 8 * rowBytes c - c.width → b.getLsbD j = false

/-- The low `p` bits of a byte are 0 exactly when `2 ^ p` divides it. -/
theorem toNat_mod_two_pow_eq_zero_iff (b : Byte) (p : Nat) :
    b.toNat % 2 ^ p = 0 ↔ ∀ j, j < p → b.getLsbD j = false := by
  constructor
  · intro h j hj
    have hbit := Nat.testBit_mod_two_pow b.toNat p j
    rw [h] at hbit
    simpa [hj, BitVec.testBit_toNat] using hbit.symm
  · intro h
    refine Nat.eq_of_testBit_eq fun j => ?_
    rw [Nat.testBit_mod_two_pow, Nat.zero_testBit, BitVec.testBit_toNat]
    by_cases hj : j < p
    · simp [h j hj]
    · simp [hj]

theorem paddingClear_iff (c : Config) (buf : List Host.Cell) :
    paddingClear c buf = true ↔ ∀ cell ∈ buf, BytePaddingClear c cell.1 cell.2 := by
  unfold paddingClear BytePaddingClear
  rw [List.all_eq_true]
  refine forall₂_congr fun cell _ => ?_
  rw [← toNat_mod_two_pow_eq_zero_iff]
  split <;> simp_all

/-- Every byte of a buffer whose padding is clear, listed or not, has its padding clear. -/
theorem bytePaddingClear_bufByte {c : Config} {buf : List Host.Cell} (h : paddingClear c buf = true) (k : Nat) :
    BytePaddingClear c k (bufByte buf k) := by
  rcases readCells_cases blankByte buf k with hb | hb
  · intro _ j _
    simp [bufByte, hb, blankByte]
  · exact (paddingClear_iff c buf).1 h _ hb

/-- The bit of a pixel on the display is no padding bit (rules R35, R36). -/
theorem pixelBit_not_padding {c : Config} {px py : Nat} (hx : px < c.width)
    (hlast : pixelByte c px py % rowBytes c + 1 = rowBytes c) : 8 * rowBytes c - c.width ≤ pixelBit px := by
  have hcol : px / 8 < rowBytes c := by unfold rowBytes; omega
  have hmod : pixelByte c px py % rowBytes c = px / 8 := by
    rw [pixelByte, Nat.mul_add_mod_self_right, Nat.mod_eq_of_lt hcol]
  unfold pixelBit
  omega

/-- `set` changes no padding bit (rules R36, R174). -/
theorem setPixel_paddingClear {c : Config} {buf : List Host.Cell} (h : paddingClear c buf = true) (px py : Nat)
    (on : Bool) : paddingClear c (setPixel c buf px py on) = true := by
  unfold setPixel
  split
  case isTrue hon =>
    refine (paddingClear_iff c _).2 fun cell hcell => ?_
    rcases mem_writeCells hcell with rfl | hold
    · intro hlast j hj
      have hbit := pixelBit_not_padding ((onDisplay_iff c px py).1 hon).1 hlast
      rw [putBit_getLsbD _ _ _ (pixelBit_lt px), if_neg (by omega)]
      exact bytePaddingClear_bufByte h _ hlast j hj
    · exact (paddingClear_iff c buf).1 h cell hold
  case isFalse => exact h

/-- Any sequence of flips keeps the padding clear. -/
theorem flipAll_paddingClear {c : Config} {buf : List Host.Cell} (h : paddingClear c buf = true)
    (ps : List (Nat × Nat)) : paddingClear c (flipAll c buf ps).1 = true := by
  induction ps generalizing buf with
  | nil => exact h
  | cons p ps ih => exact ih (setPixel_paddingClear h _ _ _)

end Sys2Proof.Machine
end

section
/-! SUPPORT. What each operation of `00_scope.md` rule R12 answers, case by case. -/

namespace Sys2Proof.Machine

variable {s : State} {rest : List Op}

theorem step_of_no_request (h : s.ports.requests = []) : step s = stepCpu s := by
  simp only [step, nextOperation, h]

theorem step_of_step_request (h : s.ports.requests = .step :: rest) : step s = stepCpu (s.setRequests rest) := by
  simp only [step, nextOperation, h]

theorem step_of_tick_request (h : s.ports.requests = .tick :: rest) :
    step s = .next (tick (s.setRequests rest)) := by
  simp only [step, nextOperation, h]

theorem step_of_load_request {rom : List Byte} (h : s.ports.requests = .load rom :: rest) :
    step s = .next (performLoad rom (s.setRequests rest)) := by
  simp only [step, nextOperation, h]

theorem step_of_reset_request (h : s.ports.requests = .reset :: rest) :
    step s = .next (performReset (s.setRequests rest)) := by
  simp only [step, nextOperation, h]

theorem stepCpu_of_faulted {f : Fault} {a : Word} (h : s.status = .faulted f a) : stepCpu s = .next s := by
  simp only [stepCpu, h]

theorem stepCpu_of_fetchable (hr : s.status = .running) (hf : s.fetchable = true) :
    stepCpu s = exec (decode s.fetchWord) (s.setPc (s.pc + 2)) := by
  simp only [stepCpu, hr, hf, if_true]

theorem stepCpu_of_not_fetchable (hr : s.status = .running) (hf : s.fetchable = false) :
    stepCpu s = .next (s.takeFault (.fetchOutOfBounds s.pc.toNat) s.pc) := by
  simp only [stepCpu, hr, hf, Bool.false_eq_true, if_false]

theorem performLoad_of_ok {rom : List Byte} {t : State} (h : load rom s = .ok t) : performLoad rom s = t := by
  simp only [performLoad, h]

theorem performLoad_of_error {rom : List Byte} {e : LoadError} (h : load rom s = .error e) :
    performLoad rom s = s := by
  simp only [performLoad, h]

/-- Everything a LOAD can do (rules R255 to R257). -/
theorem load_cases (rom : List Byte) (s : State) :
    (maxRom < rom.length ∧ load rom s = .error .romTooLarge) ∨
    (rom.length ≤ maxRom ∧ load rom s = .ok ((s.writeBytes programBase.toNat rom).setPc programBase)) := by
  by_cases h : maxRom < rom.length
  · exact .inl ⟨h, if_pos h⟩
  · exact .inr ⟨Nat.le_of_not_lt h, if_neg h⟩

end Sys2Proof.Machine
end

section
/-! SUPPORT. What a step can do to the parameters, to memory and to the packed buffer, said once: it keeps all three,
stores a block inside the address space, flips pixels, clears the display, or resets the machine. -/

namespace Sys2Proof.Machine

/-- `t` holds the parameters, the memory and the packed buffer of `s`. -/
structure SameStorage (s t : State) : Prop where
  config : t.config = s.config
  mem : t.mem = s.mem
  fb : t.fb = s.fb

theorem SameStorage.trans {s t u : State} (h : SameStorage s t) (k : SameStorage t u) : SameStorage s u :=
  ⟨k.config.trans h.config, k.mem.trans h.mem, k.fb.trans h.fb⟩

theorem SameStorage.symm {s t : State} (h : SameStorage s t) : SameStorage t s :=
  ⟨h.config.symm, h.mem.symm, h.fb.symm⟩

theorem SameStorage.inv {s t : State} (h : SameStorage s t) (hs : s.Inv) : t.Inv := by
  rw [State.Inv, h.config, h.mem, h.fb]
  exact hs

theorem SameStorage.setFb {s t : State} (h : SameStorage s t) (buf : List Host.Cell) :
    SameStorage (s.setFb buf) (t.setFb buf) := ⟨h.config, h.mem, rfl⟩

theorem SameStorage.performReset {s t : State} (h : SameStorage s t) :
    SameStorage (performReset s) (performReset t) := ⟨h.config, rfl, rfl⟩

theorem SameStorage.writeMem {s t : State} (h : SameStorage s t) (a : Nat) (b : Byte) :
    SameStorage (s.writeMem a b) (t.writeMem a b) :=
  ⟨h.config, by rw [State.writeMem_mem, State.writeMem_mem, h.config, h.mem], h.fb⟩

theorem SameStorage.writeBytes {s t : State} (h : SameStorage s t) (a : Nat) (bs : List Byte) :
    SameStorage (s.writeBytes a bs) (t.writeBytes a bs) := by
  induction bs generalizing s t a with
  | nil => exact h
  | cons b bs ih => exact ih (h.writeMem a b) (a + 1)

theorem State.skipIf_sameStorage (s : State) (cond : Bool) : SameStorage s (s.skipIf cond) := by
  cases cond <;> exact ⟨rfl, rfl, rfl⟩

theorem State.sampleKeys_sameStorage (s : State) : SameStorage s s.sampleKeys.2 := by
  rw [State.sampleKeys_eq]
  exact ⟨rfl, rfl, rfl⟩

theorem State.drawRand_sameStorage (s : State) : SameStorage s s.drawRand.2 := by
  rw [State.drawRand_eq]
  exact ⟨rfl, rfl, rfl⟩

theorem State.writeRegs_sameStorage (s : State) (k : Nat) (bs : List Byte) : SameStorage s (s.writeRegs k bs) := by
  rw [State.writeRegs_eq]
  exact ⟨rfl, rfl, rfl⟩

/-- Everything one operation can do to the parameters, memory and the packed buffer. -/
inductive StorageChange (s t : State) : Prop where
  | kept (h : SameStorage s t)
  | stored (a : Nat) (bs : List Byte) (hfits : a + bs.length ≤ memSize) (h : SameStorage (s.writeBytes a bs) t)
  | flipped (ps : List (Nat × Nat)) (h : SameStorage (s.setFb (flipAll s.config s.fb ps).1) t)
  | cleared (h : SameStorage (s.setFb clearBuffer) t)
  | reset (h : SameStorage (performReset s) t)

/-- Only the storage of the state before counts. -/
theorem StorageChange.of_sameStorage {s u t : State} (hsu : SameStorage s u) (h : StorageChange u t) :
    StorageChange s t := by
  cases h with
  | kept h => exact .kept (hsu.trans h)
  | stored a bs hfits h => exact .stored a bs hfits ((hsu.writeBytes a bs).trans h)
  | flipped ps h =>
    rw [hsu.config, hsu.fb] at h
    exact .flipped ps ((hsu.setFb _).trans h)
  | cleared h => exact .cleared ((hsu.setFb _).trans h)
  | reset h => exact .reset (hsu.performReset.trans h)

/-- The parameters stay (rule R7). -/
theorem StorageChange.config_eq {s t : State} (h : StorageChange s t) : t.config = s.config := by
  cases h with
  | kept h | flipped _ h | cleared h | reset h => exact h.config
  | stored a bs _ h => rw [h.config, State.writeBytes_eq]

/-- A machine constructed with parameters in their bounds meets the storage invariant (rule R44). -/
theorem construct_inv {c : Config} (p : Ports) (h : configWf c = true) : (State.construct c p).Inv :=
  ⟨h, construct_memory_wf c p, rfl, rfl⟩

/-- A block store inside the address space keeps the storage invariant (rule R31). -/
theorem State.Inv.writeBytes {s : State} (hs : s.Inv) (a : Nat) (bs : List Byte) (hfits : a + bs.length ≤ memSize) :
    (s.writeBytes a bs).Inv := by
  obtain ⟨hconfig, hmem, hfb, hpad⟩ := hs
  have hwf := State.writeBytes_wf hmem a bs (.inr hfits)
  rw [State.writeBytes_eq] at hwf ⊢
  exact ⟨hconfig, hwf, hfb, hpad⟩

theorem StorageChange.inv {s t : State} (h : StorageChange s t) (hs : s.Inv) : t.Inv := by
  cases h with
  | kept h => exact h.inv hs
  | stored a bs hfits h => exact h.inv (hs.writeBytes a bs hfits)
  | flipped ps h =>
    obtain ⟨hconfig, hmem, hfb, hpad⟩ := hs
    exact h.inv ⟨hconfig, hmem, flipAll_wf hfb ps, flipAll_paddingClear hpad ps⟩
  | cleared h =>
    obtain ⟨hconfig, hmem, -, -⟩ := hs
    exact h.inv ⟨hconfig, hmem, rfl, rfl⟩
  | reset h =>
    obtain ⟨hconfig, -, -, -⟩ := hs
    exact h.inv (construct_inv s.ports hconfig)

/-! ### The instructions that branch -/

theorem execRet_storageChange (s : State) : ∃ t, execRet s = .next t ∧ StorageChange s t := by
  rcases s.pop_cases with ⟨-, hp⟩ | ⟨_, _, hp⟩ <;> simp only [execRet, hp]
  · exact ⟨_, rfl, .kept ⟨rfl, rfl, rfl⟩⟩
  · exact ⟨_, rfl, .kept ⟨rfl, rfl, rfl⟩⟩

theorem execCall_storageChange (nnn : Addr12) (s : State) : ∃ t, execCall nnn s = .next t ∧ StorageChange s t := by
  rcases s.push_cases s.pc with ⟨-, hp⟩ | ⟨_, hp⟩ <;> simp only [execCall, hp]
  · exact ⟨_, rfl, .kept ⟨rfl, rfl, rfl⟩⟩
  · exact ⟨_, rfl, .kept ⟨rfl, rfl, rfl⟩⟩

theorem execLdVxK_storageChange (x : Reg) (s : State) : ∃ t, execLdVxK x s = .next t ∧ StorageChange s t := by
  have hs := s.sampleKeys_sameStorage
  cases hk : anyPressed s.config s.sampleKeys.1 <;> simp only [execLdVxK, hk]
  · exact ⟨_, rfl, .kept (hs.trans ⟨rfl, rfl, rfl⟩)⟩
  · exact ⟨_, rfl, .kept (hs.trans ⟨rfl, rfl, rfl⟩)⟩

theorem execDrw_storageChange (x y : Reg) (n : Nibble) (s : State) :
    ∃ t, execDrw x y n s = .next t ∧ StorageChange s t := by
  rcases s.dataFault_cases n.toNat with ⟨-, hd⟩ | ⟨-, -, hd⟩ <;> simp only [execDrw, hd]
  · exact ⟨_, rfl, .flipped _ ⟨rfl, rfl, rfl⟩⟩
  · exact ⟨_, rfl, .kept ⟨rfl, rfl, rfl⟩⟩

/-- A block that passes the data bound is stored inside the address space (rule R150). -/
theorem storageChange_of_dataFault {s : State} {bs : List Byte} (h : s.dataFault bs.length = none) :
    StorageChange s (s.writeBytes s.index.toNat bs) := by
  rcases s.dataFault_cases bs.length with ⟨hempty | hfits, -⟩ | ⟨-, -, hd⟩
  · rw [List.eq_nil_of_length_eq_zero hempty]
    exact .kept ⟨rfl, rfl, rfl⟩
  · exact .stored _ bs hfits ⟨rfl, rfl, rfl⟩
  · simp [h] at hd

theorem execStoreBcd_storageChange (x : Reg) (s : State) :
    ∃ t, execStoreBcd x s = .next t ∧ StorageChange s t := by
  unfold execStoreBcd
  cases hd : s.dataFault 3 with
  | some f => exact ⟨_, rfl, .kept ⟨rfl, rfl, rfl⟩⟩
  | none => exact ⟨_, rfl, storageChange_of_dataFault hd⟩

theorem execStoreRegs_storageChange (x : Reg) (s : State) :
    ∃ t, execStoreRegs x s = .next t ∧ StorageChange s t := by
  unfold execStoreRegs
  cases hd : s.dataFault (blockLength x) with
  | some f => exact ⟨_, rfl, .kept ⟨rfl, rfl, rfl⟩⟩
  | none => exact ⟨_, rfl, storageChange_of_dataFault (by rwa [State.readRegs_length])⟩

theorem execLoadRegs_storageChange (x : Reg) (s : State) :
    ∃ t, execLoadRegs x s = .next t ∧ StorageChange s t := by
  unfold execLoadRegs
  cases s.dataFault (blockLength x) with
  | some f => exact ⟨_, rfl, .kept ⟨rfl, rfl, rfl⟩⟩
  | none => exact ⟨_, rfl, .kept (s.writeRegs_sameStorage _ _)⟩

/-! ### Every instruction, every STEP, every operation -/

theorem exec_storageChange (i : Instr) (s : State) : ∃ t, exec i s = .next t ∧ StorageChange s t := by
  cases i with
  | cls => exact ⟨_, rfl, .cleared ⟨rfl, rfl, rfl⟩⟩
  | ret => exact execRet_storageChange s
  | call nnn => exact execCall_storageChange nnn s
  | ldVxK x => exact execLdVxK_storageChange x s
  | drw x y n => exact execDrw_storageChange x y n s
  | storeBcd x => exact execStoreBcd_storageChange x s
  | storeRegs x => exact execStoreRegs_storageChange x s
  | loadRegs x => exact execLoadRegs_storageChange x s
  | seImm | sneImm | seReg | sneReg => exact ⟨_, rfl, .kept (s.skipIf_sameStorage _)⟩
  | skp | sknp => exact ⟨_, rfl, .kept (s.sampleKeys_sameStorage.trans (State.skipIf_sameStorage _ _))⟩
  | rnd => exact ⟨_, rfl, .kept (s.drawRand_sameStorage.trans ⟨rfl, rfl, rfl⟩)⟩
  | sys | undef | jp | jpV0 | ldImm | addImm | ldReg | orReg | andReg | xorReg | addReg | subReg | shr | subnReg | shl
  | ldI | addI | ldFont | ldVxDt | ldDtVx | ldStVx => exact ⟨_, rfl, .kept ⟨rfl, rfl, rfl⟩⟩

theorem stepCpu_storageChange (s : State) : ∃ t, stepCpu s = .next t ∧ StorageChange s t := by
  cases hr : s.status with
  | faulted f a => exact ⟨s, stepCpu_of_faulted hr, .kept ⟨rfl, rfl, rfl⟩⟩
  | running =>
    cases hf : s.fetchable with
    | false => exact ⟨_, stepCpu_of_not_fetchable hr hf, .kept ⟨rfl, rfl, rfl⟩⟩
    | true =>
      have hpc : SameStorage s (s.setPc (s.pc + 2)) := ⟨rfl, rfl, rfl⟩
      obtain ⟨t, ht, hst⟩ := exec_storageChange (decode s.fetchWord) (s.setPc (s.pc + 2))
      exact ⟨t, (stepCpu_of_fetchable hr hf).trans ht, hst.of_sameStorage hpc⟩

/-- An image that fits is stored at 0x200 upward; one that does not changes nothing (rules R255, R257). -/
theorem performLoad_storageChange (rom : List Byte) (s : State) : StorageChange s (performLoad rom s) := by
  rcases load_cases rom s with ⟨-, hload⟩ | ⟨hlen, hload⟩
  · rw [performLoad_of_error hload]
    exact .kept ⟨rfl, rfl, rfl⟩
  · rw [performLoad_of_ok hload]
    have hfits : programBase.toNat + rom.length ≤ memSize := Nat.add_le_add_left hlen 512
    exact .stored _ rom hfits ⟨rfl, rfl, rfl⟩

theorem step_storageChange (s : State) : ∃ t, step s = .next t ∧ StorageChange s t := by
  have hreq (ops : List Op) : SameStorage s (s.setRequests ops) := ⟨rfl, rfl, rfl⟩
  cases h : s.ports.requests with
  | nil => rw [step_of_no_request h]; exact stepCpu_storageChange s
  | cons op rest =>
    cases op with
    | step =>
      obtain ⟨t, ht, hst⟩ := stepCpu_storageChange (s.setRequests rest)
      exact ⟨t, (step_of_step_request h).trans ht, hst.of_sameStorage (hreq rest)⟩
    | tick => exact ⟨_, step_of_tick_request h, .kept ⟨rfl, rfl, rfl⟩⟩
    | load rom =>
      exact ⟨_, step_of_load_request h, (performLoad_storageChange rom _).of_sameStorage (hreq rest)⟩
    | reset => exact ⟨_, step_of_reset_request h, .reset ⟨rfl, rfl, rfl⟩⟩

/-- Whatever state a step answers is reached by one of these changes. -/
theorem storageChange_of_step {s t : State} (h : step s = .next t) : StorageChange s t := by
  obtain ⟨u, hu, hsu⟩ := step_storageChange s
  cases hu.symm.trans h
  exact hsu

end Sys2Proof.Machine
end

section
/-! The statements of `00_scope.md`. -/

namespace Sys2Proof.Machine

/-- Settles O17: every change a step can make to the storage keeps the invariant; a flip, because no pixel of the
display stands in a padding bit. -/
theorem stepKeepsStorageInvariant : Obligations.StepKeepsStorageInvariant := by
  intro s t hs h
  exact (storageChange_of_step h).inv hs

/-- Settles O19: no change a step can make to the storage touches the parameters. -/
theorem stepKeepsParameters : Obligations.StepKeepsParameters := by
  intro s t h
  exact (storageChange_of_step h).config_eq

/-- Settles O8, one clause per head of the list of requests. -/
theorem requestsRunInOrder : Obligations.RequestsRunInOrder := by
  intro s rest
  refine ⟨step_of_tick_request, step_of_reset_request, fun rom h => ⟨fun t ht => ?_, fun e he => ?_⟩,
    step_of_step_request, step_of_no_request⟩
  · rw [step_of_load_request h, performLoad_of_ok ht]
  · rw [step_of_load_request h, performLoad_of_error he]

/-- After construction `pc` is 0x200 and every stack entry 0 (rule R44). -/
theorem construct_pcBound (c : Config) (p : Ports) : (State.construct c p).PcBound := by
  refine ⟨(by decide : programBase.toNat ≤ 0x10FE), fun j => ?_⟩
  simp [State.construct]

/-- Settles O20: the empty memory and the empty buffer are in canonical form for any parameters. -/
theorem resetMeetsInvariants : Obligations.ResetMeetsInvariants := by
  have hcanonical : configWf Config.canonical = true := by decide
  exact ⟨fun c p hc => ⟨construct_inv p hc, construct_pcBound c p⟩, hcanonical,
    construct_inv Ports.initial hcanonical, construct_pcBound Config.canonical Ports.initial⟩

end Sys2Proof.Machine
end

section
/-! SUPPORT. Every instruction answers, and changes nothing outside the "written by" column of rule R40. -/

namespace Sys2Proof.Machine

/-- Every piece `m` may change, `m'` may change too. The defaults compare the two lists of a `touches` arm, so that a
proof names only the pieces whose inclusion needs an argument. -/
structure Touched.Within (m m' : Touched) : Prop where
  regs : ∀ r, m'.regs r = false → m.regs r = false := by simp +contextual [touches]
  index : m'.index = false → m.index = false := by simp [touches]
  pc : m'.pc = false → m.pc = false := by simp [touches]
  entries : ∀ j, m'.entries j = false → m.entries j = false := by simp [touches]
  sp : m'.sp = false → m.sp = false := by simp [touches]
  dt : m'.dt = false → m.dt = false := by simp [touches]
  st : m'.st = false → m.st = false := by simp [touches]
  tone : m'.tone = false → m.tone = false := by simp [touches]
  status : m'.status = false → m.status = false := by simp [touches]
  mem : ∀ a, m'.mem a = false → m.mem a = false := by simp [touches]
  display : m'.display = false → m.display = false := by simp [touches]
  ports : m'.ports = false → m.ports = false := by simp [touches]

theorem Frame.mono {m m' : Touched} {s t : State} (h : Frame m s t) (w : m.Within m') : Frame m' s t :=
  h.widen w.regs w.index w.pc w.entries w.sp w.dt w.st w.tone w.status w.mem w.display w.ports

/-! ### Two writes, one after the other -/

/-- A flag and a result written: `VF` and the destination change, nothing else (rule R120). -/
theorem State.setFlag_setReg_frame (s : State) (f : Bool) (x : Reg) (b : Byte) :
    Frame { regs := fun r => r == x || r == VF } s ((s.setFlag f).setReg x b) :=
  ((s.setReg_frame VF (flagByte f)).mono {}).trans ((State.setReg_frame _ x b).mono {})

/-- A popped return changes `SP` and `pc`; the entry keeps its value (rule R26). -/
theorem State.popped_frame (s : State) (n : Fin 17) (w : Word) :
    Frame { pc := true, sp := true } s ({ s with sp := n }.setPc w) :=
  ⟨fun _ _ => rfl, fun _ => rfl, nofun, fun _ _ => rfl, nofun, fun _ => rfl, fun _ => rfl, fun _ => rfl, fun _ => rfl,
    fun _ _ => rfl, fun _ _ => rfl, fun _ => rfl, rfl, rfl⟩

/-- A pushed call changes the entry at `SP`, `SP` and `pc` (rule R108). -/
theorem State.pushed_frame (s : State) (h : s.sp.val < 16) (e w : Word) (n : Fin 17) :
    Frame { pc := true, sp := true, entries := fun j => j == s.sp.val } s
      ({ s with stack := s.stack.set s.sp.val e h, sp := n }.setPc w) := by
  refine ⟨fun _ _ => rfl, fun _ => rfl, nofun, fun j hj => ?_, nofun, fun _ => rfl, fun _ => rfl, fun _ => rfl,
    fun _ => rfl, fun _ _ => rfl, fun _ _ => rfl, fun _ => rfl, rfl, rfl⟩
  have hne : j.val ≠ s.sp.val := beq_eq_false_iff_ne.1 hj
  exact Vector.getElem_set_ne h j.isLt hne.symm

/-! ### The instructions that branch -/

theorem execRet_frame (s : State) : ∃ t, execRet s = .next t ∧ Frame (touches .ret s) s t := by
  rcases s.pop_cases with ⟨-, hp⟩ | ⟨_, _, hp⟩ <;> simp only [execRet, hp]
  · exact ⟨_, rfl, (s.raise_frame _).mono {}⟩
  · exact ⟨_, rfl, (s.popped_frame _ _).mono {}⟩

theorem execCall_frame (nnn : Addr12) (s : State) :
    ∃ t, execCall nnn s = .next t ∧ Frame (touches (.call nnn) s) s t := by
  rcases s.push_cases s.pc with ⟨-, hp⟩ | ⟨h, hp⟩ <;> simp only [execCall, hp]
  · exact ⟨_, rfl, (s.raise_frame _).mono {}⟩
  · exact ⟨_, rfl, (s.pushed_frame h _ _ _).mono {}⟩

theorem execLdVxK_frame (x : Reg) (s : State) :
    ∃ t, execLdVxK x s = .next t ∧ Frame (touches (.ldVxK x) s) s t := by
  have hs : Frame (touches (.ldVxK x) s) s s.sampleKeys.2 := s.sampleKeys_frame.mono {}
  cases hk : anyPressed s.config s.sampleKeys.1 <;> simp only [execLdVxK, hk]
  · exact ⟨_, rfl, hs.trans ((State.setPc_frame _ _).mono {})⟩
  · exact ⟨_, rfl, hs.trans ((State.setReg_frame _ x _).mono {})⟩

/-! ### The instructions that access memory -/

/-- An instruction that accesses memory faults before it writes anything, or changes `m` alone (rules R150, R212). -/
inductive Access (m : Touched) (s t : State) : Prop where
  | faulted (f : Fault) (h : t = s.raise f)
  | done (h : Frame m s t)

theorem Access.frame {m m' : Touched} {s t : State} (h : Access m s t) (hdone : m.Within m')
    (hfault : ({ pc := true, status := true } : Touched).Within m') : Frame m' s t := by
  cases h with
  | faulted f h =>
    rw [h]
    exact (s.raise_frame f).mono hfault
  | done h => exact h.mono hdone

theorem execDrw_access (x y : Reg) (n : Nibble) (s : State) :
    ∃ t, execDrw x y n s = .next t ∧ Access { regs := fun r => r == VF, display := true } s t := by
  unfold execDrw
  cases s.dataFault n.toNat with
  | some f => exact ⟨_, rfl, .faulted f rfl⟩
  | none => exact ⟨_, rfl, .done (((s.setReg_frame VF _).mono {}).trans ((State.setFb_frame _ _).mono {}))⟩

theorem execStoreBcd_access (x : Reg) (s : State) :
    ∃ t, execStoreBcd x s = .next t ∧ Access { mem := s.dataRange 3 } s t := by
  unfold execStoreBcd
  cases s.dataFault 3 with
  | some f => exact ⟨_, rfl, .faulted f rfl⟩
  | none => exact ⟨_, rfl, .done (s.writeBytes_frame (bcdDigits (s.reg x)))⟩

theorem execStoreRegs_access (x : Reg) (s : State) :
    ∃ t, execStoreRegs x s = .next t ∧ Access { mem := s.dataRange (blockLength x) } s t := by
  unfold execStoreRegs
  cases s.dataFault (blockLength x) with
  | some f => exact ⟨_, rfl, .faulted f rfl⟩
  | none =>
    have hw := s.writeBytes_frame (s.readRegs 0 (blockLength x))
    rw [State.readRegs_length] at hw
    exact ⟨_, rfl, .done hw⟩

theorem execLoadRegs_access (x : Reg) (s : State) :
    ∃ t, execLoadRegs x s = .next t ∧ Access { regs := fun r => decide (r.toNat < blockLength x) } s t := by
  unfold execLoadRegs
  cases s.dataFault (blockLength x) with
  | some f => exact ⟨_, rfl, .faulted f rfl⟩
  | none =>
    have hlen : (s.readBytes s.index.toNat (blockLength x)).length = blockLength x := State.readBytes_length _ _ _
    have hw := s.writeRegs_frame _ (hlen.le.trans x.isLt)
    rw [hlen] at hw
    exact ⟨_, rfl, .done hw⟩

/-! ### Every instruction -/

theorem exec_frame (i : Instr) (s : State) : ∃ t, exec i s = .next t ∧ Frame (touches i s) s t := by
  cases i with
  | sys | undef => exact ⟨_, rfl, Frame.refl _ s⟩
  | jp | jpV0 => exact ⟨_, rfl, s.setPc_frame _⟩
  | seImm | sneImm | seReg | sneReg => exact ⟨_, rfl, s.skipIf_frame _⟩
  | skp | sknp => exact ⟨_, rfl, (s.sampleKeys_frame.mono {}).trans ((State.skipIf_frame _ _).mono {})⟩
  | ldImm | addImm | ldReg | orReg | andReg | xorReg | ldVxDt => exact ⟨_, rfl, s.setReg_frame _ _⟩
  | addReg | subReg | shr | subnReg | shl => exact ⟨_, rfl, s.setFlag_setReg_frame _ _ _⟩
  | rnd => exact ⟨_, rfl, (s.drawRand_frame.mono {}).trans ((State.setReg_frame _ _ _).mono {})⟩
  | ldI | addI | ldFont => exact ⟨_, rfl, s.setIndex_frame _⟩
  | ldDtVx => exact ⟨_, rfl, s.setDt_frame _⟩
  | ldStVx => exact ⟨_, rfl, s.setSt_frame _⟩
  | cls => exact ⟨_, rfl, s.setFb_frame _⟩
  | ret => exact execRet_frame s
  | call nnn => exact execCall_frame nnn s
  | ldVxK x => exact execLdVxK_frame x s
  | drw x y n => exact (execDrw_access x y n s).imp fun _ ⟨ht, h⟩ => ⟨ht, h.frame {} {}⟩
  | storeBcd x => exact (execStoreBcd_access x s).imp fun _ ⟨ht, h⟩ => ⟨ht, h.frame {} {}⟩
  | storeRegs x =>
    exact (execStoreRegs_access x s).imp fun _ ⟨ht, h⟩ => ⟨ht, h.frame { mem := fun _ hm => hm } {}⟩
  | loadRegs x =>
    exact (execLoadRegs_access x s).imp fun _ ⟨ht, h⟩ =>
      ⟨ht, h.frame { regs := by simp [touches, blockLength] } {}⟩

end Sys2Proof.Machine
end

section
/-! The frame statement of `10_state.md`. -/

namespace Sys2Proof.Machine

/-- Settles O14: the one state an instruction answers is the one framed by `exec_frame`. -/
theorem execFrame : Obligations.ExecFrame := by
  intro i s t h
  obtain ⟨u, hu, hframe⟩ := exec_frame i s
  cases hu.symm.trans h
  exact hframe

end Sys2Proof.Machine
end

section
/-! SUPPORT. What an instruction can do to `pc`, `status` and the stack, said once: it faults, or it leaves `pc` where
rule R24 says and pushes at most the advanced `pc`. -/

namespace Sys2Proof.Machine

/-- Where a skip leaves `pc` (rules R104 to R107, R190, R191). -/
def State.skipPc (s : State) (cond : Bool) : Word := if cond then s.pc + 2 else s.pc

/-- `pc` after the execute part of an instruction that does not fault; `pc` of `s` is `a + 2` already (rules R24,
R100). -/
def State.nextPc (s : State) : Instr → Word
  | .jp nnn | .call nnn => zextAddr nnn
  | .jpV0 nnn => jumpV0Target s nnn
  | .ret => s.stack.toList.getD (s.sp.val - 1) 0
  | .seImm x kk => s.skipPc (s.reg x == kk)
  | .sneImm x kk => s.skipPc (s.reg x != kk)
  | .seReg x y => s.skipPc (s.reg x == s.reg y)
  | .sneReg x y => s.skipPc (s.reg x != s.reg y)
  | .skp x => s.skipPc (keyPressed s.config s.sampleKeys.1 (s.reg x))
  | .sknp x => s.skipPc (!keyPressed s.config s.sampleKeys.1 (s.reg x))
  | .ldVxK _ => if (anyPressed s.config s.sampleKeys.1).isSome then s.pc else s.pc - 2
  | _ => s.pc

/-- The instruction ran to its end: `status` is kept, `pc` is at `target`, and a stack entry that changed holds the
`pc` of before, which is a call's return address. -/
structure Continues (target : Word) (s t : State) : Prop where
  status : t.status = s.status
  pc : t.pc = target
  entries : ∀ j : Fin 16, t.stack[j] = s.stack[j] ∨ t.stack[j] = s.pc

theorem Continues.refl (s : State) : Continues s.pc s s := ⟨rfl, rfl, fun _ => .inl rfl⟩

/-- An instruction framed away from `pc`, `status` and the stack goes on to the next one. -/
theorem Frame.continues {m : Touched} {s t : State} (h : Frame m s t) (hpc : m.pc = false)
    (hstatus : m.status = false) (hentries : ∀ j, m.entries j = false) : Continues s.pc s t := by
  obtain ⟨-, -, kpc, kstack, -, -, -, -, kstatus, -, -, -, -, -⟩ := h
  exact ⟨kstatus hstatus, kpc hpc, fun j => .inl (kstack j (hentries j))⟩

theorem Continues.setPc {a : Word} {s t : State} (h : Continues a s t) (w : Word) : Continues w s (t.setPc w) :=
  ⟨h.status, rfl, h.entries⟩

theorem Continues.skipIf {s t : State} (h : Continues s.pc s t) (cond : Bool) :
    Continues (s.skipPc cond) s (t.skipIf cond) := by
  cases cond with
  | false => exact h
  | true => exact ⟨h.status, congrArg (· + 2) h.pc, h.entries⟩

theorem State.sampleKeys_continues (s : State) : Continues s.pc s s.sampleKeys.2 :=
  s.sampleKeys_frame.continues rfl rfl fun _ => rfl

/-- Everything an instruction can do to `pc`, `status` and the stack. -/
inductive ControlChange (i : Instr) (s t : State) : Prop where
  | faulted (f : Fault) (h : t = s.raise f)
  | continued (h : Continues (s.nextPc i) s t)

/-! ### The instructions that branch -/

theorem execRet_controlChange (s : State) : ∃ t, execRet s = .next t ∧ ControlChange .ret s t := by
  rcases s.pop_cases with ⟨-, hp⟩ | ⟨_, hlt, hp⟩ <;> simp only [execRet, hp]
  · exact ⟨_, rfl, .faulted _ rfl⟩
  · have htop : s.stack[s.sp.val - 1] = s.nextPc .ret := by simp [State.nextPc, hlt]
    exact ⟨_, rfl, .continued ⟨rfl, htop, fun _ => .inl rfl⟩⟩

theorem execCall_controlChange (nnn : Addr12) (s : State) :
    ∃ t, execCall nnn s = .next t ∧ ControlChange (.call nnn) s t := by
  rcases s.push_cases s.pc with ⟨-, hp⟩ | ⟨hlt, hp⟩ <;> simp only [execCall, hp]
  · exact ⟨_, rfl, .faulted _ rfl⟩
  · refine ⟨_, rfl, .continued ⟨rfl, rfl, fun j => ?_⟩⟩
    have hset : (s.stack.set s.sp.val s.pc hlt)[j] = if s.sp.val = j.val then s.pc else s.stack[j] :=
      Vector.getElem_set hlt j.isLt
    rw [State.setPc_stack, hset]
    split
    · exact .inr rfl
    · exact .inl rfl

theorem execLdVxK_controlChange (x : Reg) (s : State) :
    ∃ t, execLdVxK x s = .next t ∧ ControlChange (.ldVxK x) s t := by
  have hs := s.sampleKeys_continues
  cases hk : anyPressed s.config s.sampleKeys.1 with
  | none =>
    have hpc : s.nextPc (.ldVxK x) = s.pc - 2 := by simp [State.nextPc, hk]
    simp only [execLdVxK, hk]
    exact ⟨_, rfl, .continued (hpc ▸ hs.setPc _)⟩
  | some k =>
    have hpc : s.nextPc (.ldVxK x) = s.pc := by simp [State.nextPc, hk]
    simp only [execLdVxK, hk]
    exact ⟨_, rfl, .continued ⟨hs.status, hs.pc.trans hpc.symm, hs.entries⟩⟩

/-- An access that does not fault goes on to the next instruction. -/
theorem Access.controlChange {m : Touched} {i : Instr} {s t : State} (h : Access m s t) (hi : s.nextPc i = s.pc)
    (hpc : m.pc = false) (hstatus : m.status = false) (hentries : ∀ j, m.entries j = false) :
    ControlChange i s t := by
  cases h with
  | faulted f h => exact .faulted f h
  | done h => exact .continued (hi ▸ h.continues hpc hstatus hentries)

/-! ### Every instruction, every STEP -/

theorem exec_controlChange (i : Instr) (s : State) : ∃ t, exec i s = .next t ∧ ControlChange i s t := by
  cases i with
  | jp | jpV0 => exact ⟨_, rfl, .continued ((Continues.refl s).setPc _)⟩
  | seImm | sneImm | seReg | sneReg => exact ⟨_, rfl, .continued ((Continues.refl s).skipIf _)⟩
  | skp | sknp => exact ⟨_, rfl, .continued (s.sampleKeys_continues.skipIf _)⟩
  | ret => exact execRet_controlChange s
  | call nnn => exact execCall_controlChange nnn s
  | ldVxK x => exact execLdVxK_controlChange x s
  | drw x y n =>
    exact (execDrw_access x y n s).imp fun _ ⟨ht, h⟩ => ⟨ht, h.controlChange rfl rfl rfl fun _ => rfl⟩
  | storeBcd x =>
    exact (execStoreBcd_access x s).imp fun _ ⟨ht, h⟩ => ⟨ht, h.controlChange rfl rfl rfl fun _ => rfl⟩
  | storeRegs x =>
    exact (execStoreRegs_access x s).imp fun _ ⟨ht, h⟩ => ⟨ht, h.controlChange rfl rfl rfl fun _ => rfl⟩
  | loadRegs x =>
    exact (execLoadRegs_access x s).imp fun _ ⟨ht, h⟩ => ⟨ht, h.controlChange rfl rfl rfl fun _ => rfl⟩
  | cls | sys | undef | ldImm | addImm | ldReg | orReg | andReg | xorReg | addReg | subReg | shr | subnReg | shl
  | rnd | ldI | addI | ldFont | ldVxDt | ldDtVx | ldStVx =>
    exact (exec_frame _ s).imp fun _ ⟨ht, h⟩ => ⟨ht, .continued (h.continues rfl rfl fun _ => rfl)⟩

/-- Everything a STEP of a running machine can do to `pc`, `status` and the stack. -/
inductive StepChange (s t : State) : Prop where
  | faulted (f : Fault) (h : t = { s with status := .faulted f s.pc })
  | continued (hfetch : s.pc.toNat + 1 < 4096)
      (h : Continues ((s.setPc (s.pc + 2)).nextPc (decode s.fetchWord)) (s.setPc (s.pc + 2)) t)

theorem stepChange_of_stepCpu {s t : State} (hr : s.status = .running) (h : stepCpu s = .next t) :
    StepChange s t := by
  cases hf : s.fetchable with
  | false =>
    cases (stepCpu_of_not_fetchable hr hf).symm.trans h
    exact .faulted _ rfl
  | true =>
    obtain ⟨u, hu, hchange⟩ := exec_controlChange (decode s.fetchWord) (s.setPc (s.pc + 2))
    cases ((stepCpu_of_fetchable hr hf).trans hu).symm.trans h
    cases hchange with
    | faulted f hraise => exact .faulted f (hraise.trans (s.raise_after_advance f))
    | continued hcontinues => exact .continued (of_decide_eq_true hf) hcontinues

end Sys2Proof.Machine
end

section
/-! The bound on `pc` of `10_state.md`, and where each instruction leaves `pc`. -/

namespace Sys2Proof.Machine

/-! ### The bound -/

theorem zextAddr_toNat (nnn : Addr12) : (zextAddr nnn).toNat = nnn.toNat := by
  have := nnn.isLt
  simp [zextAddr]
  omega

/-- The sum `Bnnn` jumps to fits 16 bits (rule R109). -/
theorem jumpV0Target_toNat (s : State) (nnn : Addr12) :
    (jumpV0Target s nnn).toNat = nnn.toNat + (s.reg 0).toNat := by
  have := nnn.isLt
  have := (s.reg 0).isLt
  simp [jumpV0Target, zextAddr, zextByte]
  omega

/-- `pc` is advanced past a fetchable instruction without wrapping (rules R55, R100). -/
theorem advancedPc_toNat {s : State} (h : s.pc.toNat + 1 < 4096) : (s.pc + 2).toNat = s.pc.toNat + 2 := by
  bv_omega

theorem skipPc_toNat {s : State} (h : s.pc.toNat ≤ 0x1000) (cond : Bool) :
    (s.skipPc cond).toNat = if cond then s.pc.toNat + 2 else s.pc.toNat := by
  cases cond with
  | false => rfl
  | true =>
    show (s.pc + 2).toNat = s.pc.toNat + 2
    bv_omega

theorem State.PcBound.getD_stack_le {s : State} (hs : s.PcBound) (j : Nat) :
    (s.stack.toList.getD j 0).toNat ≤ 0x1000 := by
  obtain ⟨-, hstack⟩ := hs
  by_cases hj : j < 16
  · simpa [hj] using hstack ⟨j, hj⟩
  · simp [hj]

/-- Where an instruction leaves `pc` is within the bound, if it was fetchable: only a computed jump goes above
0x1002. -/
theorem State.PcBound.nextPc_le {s : State} (hs : s.PcBound) (i : Instr) (hlow : 2 ≤ s.pc.toNat)
    (hhigh : s.pc.toNat ≤ 0x1000) : (s.nextPc i).toNat ≤ 0x10FE := by
  have hskip (cond : Bool) : (s.skipPc cond).toNat ≤ 0x10FE := by
    rw [skipPc_toNat hhigh]
    split <;> omega
  cases i with
  | jp nnn | call nnn =>
    have := nnn.isLt
    rw [State.nextPc, zextAddr_toNat]
    omega
  | jpV0 nnn =>
    have := nnn.isLt
    have := (s.reg 0).isLt
    rw [State.nextPc, jumpV0Target_toNat]
    omega
  | ret =>
    have := hs.getD_stack_le (s.sp.val - 1)
    rw [State.nextPc]
    omega
  | seImm | sneImm | seReg | sneReg | skp | sknp => exact hskip _
  | ldVxK =>
    rw [State.nextPc]
    split
    · omega
    · bv_omega
  | _ => exact hhigh.trans (by decide)

theorem StepChange.pcBound {s t : State} (h : StepChange s t) (hs : s.PcBound) : t.PcBound := by
  cases h with
  | faulted f h =>
    subst h
    exact hs
  | continued hfetch h =>
    obtain ⟨hpc, hstack⟩ := hs
    have hadv := advancedPc_toNat hfetch
    have hbound : (s.setPc (s.pc + 2)).PcBound := ⟨by rw [State.setPc_pc]; omega, hstack⟩
    refine ⟨?_, fun j => ?_⟩
    · rw [h.pc]
      exact hbound.nextPc_le _ (by rw [State.setPc_pc]; omega) (by rw [State.setPc_pc]; omega)
    · rcases h.entries j with hj | hj <;> rw [hj]
      · exact hstack j
      · rw [State.setPc_pc]; omega

theorem stepCpu_pcBound {s t : State} (hs : s.PcBound) (h : stepCpu s = .next t) : t.PcBound := by
  cases hr : s.status with
  | running => exact (stepChange_of_stepCpu hr h).pcBound hs
  | faulted f a =>
    cases (stepCpu_of_faulted hr).symm.trans h
    exact hs

/-- A LOAD keeps the stack, and puts `pc` at 0x200 or keeps it (rules R255 to R257). -/
theorem performLoad_pcBound {s : State} (hs : s.PcBound) (rom : List Byte) : (performLoad rom s).PcBound := by
  rcases load_cases rom s with ⟨-, hload⟩ | ⟨-, hload⟩
  · rwa [performLoad_of_error hload]
  · obtain ⟨-, hstack⟩ := hs
    rw [performLoad_of_ok hload, State.writeBytes_eq]
    exact ⟨(by decide : programBase.toNat ≤ 0x10FE), hstack⟩

/-- Settles O18, by the operation performed; for a STEP, by what an instruction can do to `pc` and the stack. -/
theorem stepKeepsPcBound : Obligations.StepKeepsPcBound := by
  intro s t hs h
  cases hreq : s.ports.requests with
  | nil => exact stepCpu_pcBound hs ((step_of_no_request hreq).symm.trans h)
  | cons op rest =>
    have hs' : (s.setRequests rest).PcBound := hs
    cases op with
    | step => exact stepCpu_pcBound hs' ((step_of_step_request hreq).symm.trans h)
    | tick =>
      cases (step_of_tick_request hreq).symm.trans h
      exact hs
    | load rom =>
      cases (step_of_load_request hreq).symm.trans h
      exact performLoad_pcBound hs' rom
    | reset =>
      cases (step_of_reset_request hreq).symm.trans h
      exact construct_pcBound _ _

/-! ### Where each instruction leaves `pc` -/

/-- A STEP, requested or not, runs the CPU with its request taken off the list. -/
theorem step_of_stepNext {s : State} (h : s.StepNext) : step s = stepCpu (s.setRequests s.ports.requests.tail) := by
  rcases h with hnone | ⟨rest, hreq⟩
  · have hsame : s.setRequests s.ports.requests.tail = s := by
      rw [show s.ports.requests.tail = s.ports.requests by rw [hnone, List.tail_nil]]
      rfl
    rw [step_of_no_request hnone, hsame]
  · rw [step_of_step_request hreq, hreq, List.tail_cons]

/-- The sample delivered depends on the scripted samples and the count of free ones alone. -/
theorem sampleKeys_fst_congr {s t : State} (hscript : s.ports.keySamples = t.ports.keySamples)
    (hdraws : s.ports.keyDraws = t.ports.keyDraws) : s.sampleKeys.1 = t.sampleKeys.1 := by
  cases h : t.ports.keySamples with
  | nil => rw [State.sampleKeys_free s (hscript.trans h), State.sampleKeys_free t h, hdraws]
  | cons keys rest =>
    rw [State.sampleKeys_scripted s keys rest (hscript.trans h), State.sampleKeys_scripted t keys rest h]

@[simp] theorem State.setPc_sampleKeys (s : State) (w : Word) : (s.setPc w).sampleKeys.1 = s.sampleKeys.1 :=
  sampleKeys_fst_congr rfl rfl

@[simp] theorem State.setRequests_sampleKeys (s : State) (ops : List Op) :
    (s.setRequests ops).sampleKeys.1 = s.sampleKeys.1 := sampleKeys_fst_congr rfl rfl

/-- Where a skip leaves the advanced `pc`. -/
theorem advanced_skipPc_toNat {s : State} (h : s.pc.toNat + 1 < 4096) (cond : Bool) :
    ((s.setPc (s.pc + 2)).skipPc cond).toNat = if cond then s.pc.toNat + 4 else s.pc.toNat + 2 := by
  have hadv := advancedPc_toNat h
  rw [skipPc_toNat (by rw [State.setPc_pc]; omega), State.setPc_pc, hadv]

/-- The same for a skip on the opposite condition. -/
theorem advanced_skipPc_not_toNat {s : State} (h : s.pc.toNat + 1 < 4096) (cond : Bool) :
    ((s.setPc (s.pc + 2)).skipPc !cond).toNat = if cond then s.pc.toNat + 2 else s.pc.toNat + 4 := by
  cases cond <;> exact advanced_skipPc_toNat h _

/-- Settles O10: a fault leaves `pc` where it was; without one, `pc` is the `nextPc` of the advanced `pc`, which is
rule R24 instruction by instruction. -/
theorem pcAfterStep : Obligations.PcAfterStep := by
  intro s t hr hnext hstep
  rw [step_of_stepNext hnext] at hstep
  cases stepChange_of_stepCpu (s := s.setRequests s.ports.requests.tail) hr hstep with
  | faulted f h =>
    subst h
    exact ⟨fun _ => rfl, nofun⟩
  | continued hfetch h =>
    refine ⟨fun hne => absurd (h.status.trans hr) hne, fun _ => ?_⟩
    have hskip := advanced_skipPc_toNat hfetch
    have hskipNot := advanced_skipPc_not_toNat hfetch
    have hadv : (s.pc + 2).toNat = s.pc.toNat + 2 := advancedPc_toNat hfetch
    rw [h.pc, State.fetchWord, joinBytes]
    simp only [State.setRequests_pc, State.setRequests_readMem] at hskip hskipNot ⊢
    cases decode (s.readMem s.pc.toNat ++ s.readMem (s.pc.toNat + 1)) with
    | jp nnn | call nnn => exact zextAddr_toNat nnn
    | jpV0 nnn => exact jumpV0Target_toNat _ nnn
    | ret => rfl
    | seImm | seReg | sneImm | sneReg | skp =>
      simp only [State.nextPc, hskip]
      simp
    | sknp =>
      simp only [State.nextPc, hskipNot]
      simp
    | ldVxK =>
      simp only [State.nextPc, State.setPc_config, State.setRequests_config, State.setPc_sampleKeys,
        State.setRequests_sampleKeys, State.setPc_pc, BitVec.add_sub_cancel]
      split
      · exact hadv
      · rfl
    | _ => exact hadv

end Sys2Proof.Machine
end

section
/-! SUPPORT. Noninterference: the ports, `TONE`, `ST` and the packed buffer may be overwritten before an instruction or
after it, all the same, unless the instruction is one of those that use what is overwritten. -/

namespace Sys2Proof.Machine

/-- Other contents for some of the pieces of state that few instructions use or none. -/
structure Overlay where
  ports : Option Ports := none
  tone : Option Bool := none
  st : Option Byte := none
  fb : Option (List Host.Cell) := none

/-- `s` with the overlay's contents where it has some, and its own elsewhere. -/
def Overlay.apply (o : Overlay) (s : State) : State :=
  { s with ports := o.ports.getD s.ports, tone := o.tone.getD s.tone, st := o.st.getD s.st, fb := o.fb.getD s.fb }

/-- The overlay leaves alone what an instruction uses: the ports for `Cxkk`, `Ex9E`, `ExA1` and `Fx0A`, `ST` for `Fx18`,
the Display for `00E0` and `Dxyn`; nothing uses `TONE` (rules R28, R29, R34, R38). -/
def Overlay.Spares (o : Overlay) : Instr → Prop
  | .rnd _ _ | .skp _ | .sknp _ | .ldVxK _ => o.ports = none
  | .ldStVx _ => o.st = none
  | .cls | .drw _ _ _ => o.fb = none
  | _ => True

/-! ### The shared operations under an overlay -/

variable (o : Overlay) (s : State)

theorem Overlay.readBytes_apply (a n : Nat) : (o.apply s).readBytes a n = s.readBytes a n := by
  induction n generalizing a with
  | zero => rfl
  | succ n ih => exact congrArg (s.readMem a :: ·) (ih (a + 1))

theorem Overlay.readRegs_apply (k n : Nat) : (o.apply s).readRegs k n = s.readRegs k n := by
  induction n generalizing k with
  | zero => rfl
  | succ n ih => exact congrArg (s.reg (BitVec.ofNat 4 k) :: ·) (ih (k + 1))

theorem Overlay.writeBytes_apply (a : Nat) (bs : List Byte) :
    (o.apply s).writeBytes a bs = o.apply (s.writeBytes a bs) := by
  induction bs generalizing s a with
  | nil => rfl
  | cons b bs ih => exact ih (s.writeMem a b) (a + 1)

theorem Overlay.writeRegs_apply (k : Nat) (bs : List Byte) :
    (o.apply s).writeRegs k bs = o.apply (s.writeRegs k bs) := by
  induction bs generalizing s k with
  | nil => rfl
  | cons b bs ih => exact ih (s.setReg (BitVec.ofNat 4 k) b) (k + 1)

theorem Overlay.skipIf_apply (cond : Bool) : (o.apply s).skipIf cond = o.apply (s.skipIf cond) := by
  cases cond <;> rfl

theorem Overlay.push_apply (w : Word) : (o.apply s).push w = (s.push w).map o.apply := by
  by_cases h : s.sp.val < 16
  · have hs : s.push w = some _ := dif_pos h
    rw [hs]
    exact dif_pos h
  · have hs : s.push w = none := dif_neg h
    rw [hs]
    exact dif_neg h

theorem Overlay.pop_apply : (o.apply s).pop = s.pop.map fun p => (p.1, o.apply p.2) := by
  by_cases h : 0 < s.sp.val
  · have hs : s.pop = some _ := dif_pos h
    rw [hs]
    exact dif_pos h
  · have hs : s.pop = none := dif_neg h
    rw [hs]
    exact dif_neg h

theorem Overlay.dataFault_apply (len : Nat) : (o.apply s).dataFault len = s.dataFault len := rfl

theorem Overlay.sampleKeys_apply (h : o.ports = none) :
    (o.apply s).sampleKeys = (s.sampleKeys.1, o.apply s.sampleKeys.2) := by
  obtain ⟨ports, tone, st, fb⟩ := o
  subst h
  cases hk : s.ports.keySamples with
  | nil =>
    rw [State.sampleKeys_free s hk]
    exact State.sampleKeys_free _ hk
  | cons keys rest =>
    rw [State.sampleKeys_scripted s keys rest hk]
    exact State.sampleKeys_scripted _ keys rest hk

theorem Overlay.drawRand_apply (h : o.ports = none) :
    (o.apply s).drawRand = (s.drawRand.1, o.apply s.drawRand.2) := by
  obtain ⟨ports, tone, st, fb⟩ := o
  subst h
  cases hb : s.ports.randBytes with
  | nil =>
    rw [State.drawRand_free s hb]
    exact State.drawRand_free _ hb
  | cons b rest =>
    rw [State.drawRand_scripted s b rest hb]
    exact State.drawRand_scripted _ b rest hb

/-! ### Every instruction -/

/-- A meaning answers the same, with the overlay over the state it answers. -/
def Overlay.Commutes (meaning : State → Result) : Prop :=
  ∃ t, meaning s = .next t ∧ meaning (o.apply s) = .next (o.apply t)

theorem Overlay.execRet_commutes : o.Commutes s execRet := by
  unfold Overlay.Commutes
  cases h : s.pop <;> simp only [execRet, Overlay.pop_apply, h, Option.map] <;> exact ⟨_, rfl, rfl⟩

theorem Overlay.execCall_commutes (nnn : Addr12) : o.Commutes s (execCall nnn) := by
  unfold Overlay.Commutes
  have hpush : (o.apply s).push (o.apply s).pc = _ := o.push_apply s s.pc
  cases h : s.push s.pc <;> simp only [execCall, hpush, h, Option.map] <;> exact ⟨_, rfl, rfl⟩

theorem Overlay.execRnd_commutes (h : o.ports = none) (x : Reg) (kk : Byte) : o.Commutes s (execRnd x kk) :=
  ⟨_, rfl, by rw [execRnd, o.drawRand_apply s h]; rfl⟩

theorem Overlay.execSkp_commutes (h : o.ports = none) (x : Reg) : o.Commutes s (execSkp x) :=
  ⟨_, rfl, by rw [execSkp, o.sampleKeys_apply s h, ← Overlay.skipIf_apply]; rfl⟩

theorem Overlay.execSknp_commutes (h : o.ports = none) (x : Reg) : o.Commutes s (execSknp x) :=
  ⟨_, rfl, by rw [execSknp, o.sampleKeys_apply s h, ← Overlay.skipIf_apply]; rfl⟩

theorem Overlay.execLdVxK_commutes (h : o.ports = none) (x : Reg) : o.Commutes s (execLdVxK x) := by
  have hconfig : (o.apply s).config = s.config := rfl
  unfold Overlay.Commutes
  cases hk : anyPressed s.config s.sampleKeys.1 <;>
    simp only [execLdVxK, o.sampleKeys_apply s h, hconfig, hk] <;> exact ⟨_, rfl, rfl⟩

theorem Overlay.execLdStVx_commutes (h : o.st = none) (x : Reg) : o.Commutes s (execLdStVx x) := by
  obtain ⟨ports, tone, st, fb⟩ := o
  subst h
  exact ⟨_, rfl, rfl⟩

theorem Overlay.execCls_commutes (h : o.fb = none) : o.Commutes s execCls := by
  obtain ⟨ports, tone, st, fb⟩ := o
  subst h
  exact ⟨_, rfl, rfl⟩

theorem Overlay.execDrw_commutes (h : o.fb = none) (x y : Reg) (n : Nibble) : o.Commutes s (execDrw x y n) := by
  obtain ⟨ports, tone, st, fb⟩ := o
  subst h
  unfold Overlay.Commutes
  cases hd : s.dataFault n.toNat <;>
    simp only [execDrw, Overlay.dataFault_apply, Overlay.readBytes_apply, hd] <;> exact ⟨_, rfl, rfl⟩

theorem Overlay.execStoreBcd_commutes (x : Reg) : o.Commutes s (execStoreBcd x) := by
  unfold Overlay.Commutes
  cases hd : s.dataFault 3 <;>
    simp only [execStoreBcd, Overlay.dataFault_apply, Overlay.writeBytes_apply, hd] <;> exact ⟨_, rfl, rfl⟩

theorem Overlay.execStoreRegs_commutes (x : Reg) : o.Commutes s (execStoreRegs x) := by
  unfold Overlay.Commutes
  cases hd : s.dataFault (blockLength x) <;>
    simp only [execStoreRegs, Overlay.dataFault_apply, Overlay.readRegs_apply, Overlay.writeBytes_apply, hd] <;>
    exact ⟨_, rfl, rfl⟩

theorem Overlay.execLoadRegs_commutes (x : Reg) : o.Commutes s (execLoadRegs x) := by
  unfold Overlay.Commutes
  cases hd : s.dataFault (blockLength x) <;>
    simp only [execLoadRegs, Overlay.dataFault_apply, Overlay.readBytes_apply, Overlay.writeRegs_apply, hd] <;>
    exact ⟨_, rfl, rfl⟩

theorem Overlay.exec_commutes (i : Instr) (h : o.Spares i) : o.Commutes s (exec i) := by
  cases i with
  | ret => exact o.execRet_commutes s
  | call nnn => exact o.execCall_commutes s nnn
  | rnd x kk => exact o.execRnd_commutes s h x kk
  | skp x => exact o.execSkp_commutes s h x
  | sknp x => exact o.execSknp_commutes s h x
  | ldVxK x => exact o.execLdVxK_commutes s h x
  | ldStVx x => exact o.execLdStVx_commutes s h x
  | cls => exact o.execCls_commutes s h
  | drw x y n => exact o.execDrw_commutes s h x y n
  | storeBcd x => exact o.execStoreBcd_commutes s x
  | storeRegs x => exact o.execStoreRegs_commutes s x
  | loadRegs x => exact o.execLoadRegs_commutes s x
  | seImm | sneImm | seReg | sneReg => exact ⟨_, rfl, congrArg _ (o.skipIf_apply s _)⟩
  | sys | undef | jp | jpV0 | ldImm | addImm | ldReg | orReg | andReg | xorReg | addReg | subReg | shr | subnReg | shl
  | ldI | addI | ldFont | ldVxDt | ldDtVx => exact ⟨_, rfl, rfl⟩

/-- Whatever state an instruction answers, it answers it under the overlay too. -/
theorem Overlay.exec_apply {i : Instr} {s t : State} (hspares : o.Spares i) (h : exec i s = .next t) :
    exec i (o.apply s) = .next (o.apply t) := by
  obtain ⟨u, hu, ho⟩ := o.exec_commutes s i hspares
  cases hu.symm.trans h
  exact ho

end Sys2Proof.Machine
end

section
/-! The noninterference statements of `10_state.md`. -/

namespace Sys2Proof.Machine

/-- Settles O15, by an overlay of the ports alone, which spares every instruction but the four named. -/
theorem inputsReachOnlyFourInstructions : Obligations.InputsReachOnlyFourInstructions := by
  intro i s t p h hrnd hskp hsknp hldVxK
  refine Overlay.exec_apply { ports := some p } ?_ h
  cases i with
  | rnd x kk => exact absurd rfl (hrnd x kk)
  | skp x => exact absurd rfl (hskp x)
  | sknp x => exact absurd rfl (hsknp x)
  | ldVxK x => exact absurd rfl (hldVxK x)
  | ldStVx | cls | drw => exact rfl
  | _ => trivial

/-- Settles O16, by an overlay of `TONE`, of `ST` or of the Display alone. -/
theorem outputsAreNeverRead : Obligations.OutputsAreNeverRead := by
  intro i s t h
  refine ⟨fun b => ?_, fun hst b => ?_, fun hcls hdrw buf => ?_⟩
  · refine Overlay.exec_apply { tone := some b } ?_ h
    cases i with
    | rnd | skp | sknp | ldVxK | ldStVx | cls | drw => exact rfl
    | _ => trivial
  · refine Overlay.exec_apply { st := some b } ?_ h
    cases i with
    | ldStVx x => exact absurd rfl (hst x)
    | rnd | skp | sknp | ldVxK | cls | drw => exact rfl
    | _ => trivial
  · refine Overlay.exec_apply { fb := some buf } ?_ h
    cases i with
    | cls => exact absurd rfl hcls
    | drw x y n => exact absurd rfl (hdrw x y n)
    | rnd | skp | sknp | ldVxK | ldStVx => exact rfl
    | _ => trivial

end Sys2Proof.Machine
end

section
/-! The framebuffer controller and RESET, as `10_state.md` states them. -/

namespace Sys2Proof.Machine

/-! ### One pixel of the packed buffer -/

/-- A byte of the packed buffer after `set` of a pixel on the display (rule R174). -/
theorem bufByte_setPixel {c : Config} {buf : List Host.Cell} (hw : bufferWf c buf = true) {px py : Nat}
    (h : onDisplay c px py = true) (on : Bool) (k : Nat) :
    bufByte (setPixel c buf px py on) k =
      if k = pixelByte c px py then putBit (bufByte buf k) (pixelBit px) on else bufByte buf k := by
  rw [setPixel, if_pos h, bufByte, readCells_writeCells hw]
  split
  case isTrue hk => rw [hk]
  case isFalse => rfl

/-- One bit of the packed buffer after `set`: the pixel's own, or as before (rules R35, R174). -/
theorem bufByte_setPixel_getLsbD {c : Config} {buf : List Host.Cell} (hw : bufferWf c buf = true) {px py : Nat}
    (h : onDisplay c px py = true) (on : Bool) (k j : Nat) :
    (bufByte (setPixel c buf px py on) k).getLsbD j =
      if k = pixelByte c px py ∧ j = pixelBit px then on else (bufByte buf k).getLsbD j := by
  rw [bufByte_setPixel hw h]
  by_cases hk : k = pixelByte c px py
  · simp [hk, putBit_getLsbD _ _ _ (pixelBit_lt px)]
  · simp [hk]

theorem setPixel_of_not_onDisplay {c : Config} {px py : Nat} (h : onDisplay c px py = false) (buf : List Host.Cell)
    (on : Bool) : setPixel c buf px py on = buf := by
  simp [setPixel, h]

theorem getPixel_of_not_onDisplay {c : Config} {px py : Nat} (h : onDisplay c px py = false) (buf : List Host.Cell) :
    getPixel c buf px py = false := by
  simp [getPixel, h]

theorem getPixel_of_onDisplay {c : Config} {px py : Nat} (h : onDisplay c px py = true) (buf : List Host.Cell) :
    getPixel c buf px py = (bufByte buf (pixelByte c px py)).getLsbD (pixelBit px) := by
  simp [getPixel, h]

/-- `get` after `set`, at any two coordinates (rules R174, R175). -/
theorem getPixel_setPixel {c : Config} {buf : List Host.Cell} (hw : bufferWf c buf = true) (px py qx qy : Nat)
    (on : Bool) : getPixel c (setPixel c buf px py on) qx qy =
      if qx = px ∧ qy = py ∧ onDisplay c px py = true then on else getPixel c buf qx qy := by
  cases hp : onDisplay c px py with
  | false => simp [setPixel_of_not_onDisplay hp]
  | true =>
    cases hq : onDisplay c qx qy with
    | false =>
      have hne : ¬ (qx = px ∧ qy = py) := by
        rintro ⟨rfl, rfl⟩
        simp [hp] at hq
      rw [getPixel_of_not_onDisplay hq, getPixel_of_not_onDisplay hq, if_neg fun ⟨hx, hy, _⟩ => hne ⟨hx, hy⟩]
    | true =>
      obtain ⟨hpx, -⟩ := (onDisplay_iff c px py).1 hp
      obtain ⟨hqx, -⟩ := (onDisplay_iff c qx qy).1 hq
      have hsame : (pixelByte c qx qy = pixelByte c px py ∧ pixelBit qx = pixelBit px) ↔ (qx = px ∧ qy = py) := by
        refine ⟨fun ⟨hbyte, hbit⟩ => pixel_unique c hpx hqx hbyte hbit, ?_⟩
        rintro ⟨rfl, rfl⟩
        exact ⟨rfl, rfl⟩
      rw [getPixel_of_onDisplay hq, getPixel_of_onDisplay hq, bufByte_setPixel_getLsbD hw hp]
      simp only [hsame, and_true]

/-- Settles O50, from what `set` does to one bit: two pixels of the display never share one. -/
theorem setThenGetPixel : Obligations.SetThenGetPixel := by
  intro c buf px py on hw
  refine ⟨fun qx qy => ?_, fun hout => ?_, fun hx hy => ?_⟩
  · simp only [getPixel_setPixel hw, onDisplay_iff]
  · have h : onDisplay c px py = false := by
      rw [Bool.eq_false_iff, ne_eq, onDisplay_iff]
      omega
    exact ⟨setPixel_of_not_onDisplay h buf on, getPixel_of_not_onDisplay h buf⟩
  · have h : onDisplay c px py = true := (onDisplay_iff c px py).2 ⟨hx, hy⟩
    refine ⟨getPixel_of_onDisplay h buf, fun k j hne => ?_⟩
    rw [bufByte_setPixel_getLsbD hw h, if_neg fun ⟨hk, hj⟩ => hne.elim (· hk) (· hj)]

/-! ### RESET -/

/-- Memory after RESET: the font table at 0x000 to 0x04F, 0 elsewhere (rule R44). -/
theorem performReset_readMem (s : State) (a : Nat) :
    (performReset s).readMem a = if a < 0x50 then s.config.font.getD a 0 else 0 := by
  have hread : (performReset s).readMem a = resetByte s.config a := rfl
  rw [hread, resetByte]
  simp

theorem performReset_reg (s : State) (r : Reg) : (performReset s).reg r = 0 := by
  simp [performReset, State.construct, State.reg]

theorem performReset_stack (s : State) (j : Fin 16) : (performReset s).stack[j] = 0 := by
  simp [performReset, State.construct]

theorem performReset_getPixel (s : State) (px py : Nat) : (performReset s).getPixel px py = false := by
  have hblank : (performReset s).fb = clearBuffer := rfl
  simp [State.getPixel, Machine.getPixel, hblank]

/-- Settles O21, piece by piece. -/
theorem resetState : Obligations.ResetState := by
  intro s
  refine ⟨performReset_reg s, rfl, rfl, performReset_stack s, rfl, rfl, rfl, rfl, rfl, fun a ha => ?_, fun a ha => ?_,
    performReset_getPixel s, fun _ => rfl, rfl, rfl⟩
  · rw [performReset_readMem, if_pos ha]
  · rw [performReset_readMem, if_neg (Nat.not_lt.2 ha)]

end Sys2Proof.Machine
end

section
/-! SUPPORT. The decoder and the encoder undo each other (`30_encoding.md` rules R81, R85, R86). -/

namespace Sys2Proof

/-! ### A word is put together from its own fields -/

theorem formatNnn_of_fields {w : Word} {m : Nibble} {nnn : Addr12} (hm : (fieldMajor w).toNat = m.toNat)
    (hnnn : fieldNnn w = nnn) : formatNnn m nnn = w := by
  rw [← BitVec.eq_of_toNat_eq hm, ← hnnn]
  apply BitVec.eq_of_getLsbD_eq
  intro i hi
  simp only [formatNnn, fieldMajor, fieldNnn, BitVec.getLsbD_append, BitVec.getLsbD_extractLsb']
  by_cases hlow : i < 12
  · simp [hlow]
  · simp [hlow, show i - 12 < 4 by omega, show 12 + (i - 12) = i by omega]

theorem fieldNnn_eq (w : Word) : fieldNnn w = fieldX w ++ fieldKk w := by
  apply BitVec.eq_of_getLsbD_eq
  intro i hi
  simp only [fieldNnn, fieldX, fieldKk, BitVec.getLsbD_append, BitVec.getLsbD_extractLsb']
  by_cases hlow : i < 8
  · simp [hi, hlow]
  · simp [hi, hlow, show i - 8 < 4 by omega, show 8 + (i - 8) = i by omega]

theorem fieldKk_eq (w : Word) : fieldKk w = fieldY w ++ fieldN w := by
  apply BitVec.eq_of_getLsbD_eq
  intro i hi
  simp only [fieldKk, fieldY, fieldN, BitVec.getLsbD_append, BitVec.getLsbD_extractLsb']
  by_cases hlow : i < 4
  · simp [hi, hlow]
  · simp [hi, hlow, show i - 4 < 4 by omega, show 4 + (i - 4) = i by omega]

theorem formatXkk_eq (m : Nibble) (x : Reg) (kk : Byte) : formatXkk m x kk = formatNnn m (x ++ kk) :=
  BitVec.append_assoc

theorem formatXyn_eq (m : Nibble) (x y : Reg) (n : Nibble) : formatXyn m x y n = formatXkk m x (y ++ n) :=
  BitVec.append_assoc

theorem formatXkk_of_fields {w : Word} {m : Nibble} {kk : Byte} (hm : (fieldMajor w).toNat = m.toNat)
    (hkk : (fieldKk w).toNat = kk.toNat) : formatXkk m (fieldX w) kk = w := by
  rw [formatXkk_eq, ← BitVec.eq_of_toNat_eq hkk, ← fieldNnn_eq]
  exact formatNnn_of_fields hm rfl

theorem formatXyn_of_fields {w : Word} {m n : Nibble} (hm : (fieldMajor w).toNat = m.toNat)
    (hn : (fieldN w).toNat = n.toNat) : formatXyn m (fieldX w) (fieldY w) n = w := by
  rw [formatXyn_eq, ← BitVec.eq_of_toNat_eq hn, ← fieldKk_eq]
  exact formatXkk_of_fields hm rfl

/-! ### Encoding what was decoded -/

theorem encode_decodeMajor8 {w : Word} (hm : (fieldMajor w).toNat = 8) : encode (decodeMajor8 w) = w := by
  unfold decodeMajor8
  split
  case h_10 => rfl
  all_goals exact formatXyn_of_fields hm ‹_›

theorem encode_decodeMajorE {w : Word} (hm : (fieldMajor w).toNat = 0xE) : encode (decodeMajorE w) = w := by
  unfold decodeMajorE
  split
  case h_3 => rfl
  all_goals exact formatXkk_of_fields hm ‹_›

theorem encode_decodeMajorF {w : Word} (hm : (fieldMajor w).toNat = 0xF) : encode (decodeMajorF w) = w := by
  unfold decodeMajorF
  split
  case h_10 => rfl
  all_goals exact formatXkk_of_fields hm ‹_›

/-- No bit of a word is lost by decoding it, by the branch its major nibble selects: case `h_k` is major `k - 1`. -/
theorem encode_decode (w : Word) : encode (decode w) = w := by
  have hmajor : (fieldMajor w).toNat < 16 := (fieldMajor w).isLt
  unfold decode
  split
  case h_1 hm =>
    split
    case isTrue hcls => exact formatNnn_of_fields hm hcls
    case isFalse =>
      split
      case isTrue hret => exact formatNnn_of_fields hm hret
      case isFalse => exact formatNnn_of_fields hm rfl
  case h_6 hm | h_10 hm =>
    split
    case isTrue hn => exact formatXyn_of_fields hm (congrArg BitVec.toNat hn)
    case isFalse => rfl
  case h_9 hm => exact encode_decodeMajor8 hm
  case h_15 hm => exact encode_decodeMajorE hm
  case h_16 =>
    simp only [imp_false] at *
    have hm : (fieldMajor w).toNat = 0xF := by omega
    exact encode_decodeMajorF hm
  case h_2 hm | h_3 hm | h_11 hm | h_12 hm => exact formatNnn_of_fields hm rfl
  case h_4 hm | h_5 hm | h_7 hm | h_8 hm | h_13 hm => exact formatXkk_of_fields hm rfl
  case h_14 hm => exact formatXyn_of_fields hm rfl

end Sys2Proof

namespace Sys2Proof.Laws.RowMatch

/-- The row match of every instruction, from that of each constructor. -/
theorem statement : (i : Instr) → Statement i
  | .cls => cls | .ret => ret | .sys nnn => sys nnn | .jp nnn => jp nnn | .call nnn => call nnn
  | .seImm x kk => seImm x kk | .sneImm x kk => sneImm x kk | .seReg x y => seReg x y | .ldImm x kk => ldImm x kk
  | .addImm x kk => addImm x kk | .ldReg x y => ldReg x y | .orReg x y => orReg x y | .andReg x y => andReg x y
  | .xorReg x y => xorReg x y | .addReg x y => addReg x y | .subReg x y => subReg x y | .shr x y => shr x y
  | .subnReg x y => subnReg x y | .shl x y => shl x y | .sneReg x y => sneReg x y | .ldI nnn => ldI nnn
  | .jpV0 nnn => jpV0 nnn | .rnd x kk => rnd x kk | .drw x y n => drw x y n | .skp x => skp x | .sknp x => sknp x
  | .ldVxDt x => ldVxDt x | .ldVxK x => ldVxK x | .ldDtVx x => ldDtVx x | .ldStVx x => ldStVx x | .addI x => addI x
  | .ldFont x => ldFont x | .storeBcd x => storeBcd x | .storeRegs x => storeRegs x | .loadRegs x => loadRegs x
  | .undef w => undef w

end Sys2Proof.Laws.RowMatch

namespace Sys2Proof

/-! ### Decoding what was encoded -/

/-- Every row of rule R85 has its mnemonic in the opcode map; `UNDEF` has no row. -/
theorem rowNamed_mnemonic_cases (i : Instr) : (∃ w, i = .undef w) ∨ ∃ r, rowNamed i.mnemonic = some r := by
  cases i with
  | undef w => exact .inl ⟨w, rfl⟩
  | _ => exact .inr ⟨_, rfl⟩

/-- A word no row selects is decoded as itself: any other instruction's row would select it (rule R86). -/
theorem decode_of_undefinedWord {w : Word} (h : undefinedWord w = true) : decode w = .undef w := by
  have hw : encode (decode w) = w := encode_decode w
  rcases rowNamed_mnemonic_cases (decode w) with ⟨w', hundef⟩ | ⟨r, hr⟩
  · rw [hundef] at hw ⊢
    exact congrArg Instr.undef hw
  · have hmatch : w &&& r.mask = r.value := by
      rw [← Laws.RowMatch.statement (decode w) r hr, hw]
    have hnone : rowOf w = none := Option.isNone_iff_eq_none.1 h
    exact absurd (beq_iff_eq.2 hmatch) (List.find?_eq_none.1 hnone r (List.mem_of_find?_eq_some hr))

/-- Encoding loses nothing of a well-formed instruction: each field is read back from its place in the format. -/
theorem decode_encode {i : Instr} (h : i.wellFormed = true) : decode (encode i) = i := by
  cases i with
  | undef w => exact decode_of_undefinedWord h
  | cls | ret => decide
  | sys nnn =>
    simp only [Instr.wellFormed, Bool.and_eq_true, bne_iff_ne] at h
    simp only [encode, decode, fieldMajor_formatNnn, fieldNnn_formatNnn]
    exact (if_neg h.1).trans (if_neg h.2)
  | jp | call | ldI | jpV0 => simp [encode, decode]
  | seImm | sneImm | ldImm | addImm | rnd => simp [encode, decode]
  | seReg | sneReg | drw => simp [encode, decode]
  | ldReg | orReg | andReg | xorReg | addReg | subReg | shr | subnReg | shl => simp [encode, decode, decodeMajor8]
  | skp | sknp => simp [encode, decode, decodeMajorE]
  | ldVxDt | ldVxK | ldDtVx | ldStVx | addI | ldFont | storeBcd | storeRegs | loadRegs =>
    simp [encode, decode, decodeMajorF]

/-! ### The two bytes of a word -/

theorem highByte_toNat (w : Word) : (highByte w).toNat = w.toNat / 256 := by
  have hw : w.toNat < 65536 := w.isLt
  simp only [highByte, BitVec.extractLsb'_toNat, Nat.shiftRight_eq_div_pow]
  omega

theorem lowByte_toNat (w : Word) : (lowByte w).toNat = w.toNat % 256 := by
  simp [lowByte]

theorem decodeBytes_wordBytes (w : Word) (rest : List Byte) :
    decodeBytes (wordBytes w ++ rest) = .ok (decode w, rest) := by
  simp [wordBytes, decodeBytes]

end Sys2Proof
end

section
/-! SUPPORT. A STEP in the terms of `20_memory.md`: the two bytes at `pc`, and `pc` before the advance. -/

namespace Sys2Proof.Machine

variable {s : State}

/-- A STEP runs the instruction the two bytes at `pc` decode to (rules R53, R100). -/
theorem stepCpu_of_pc_lt (hr : s.status = .running) (hpc : s.pc.toNat + 1 < 4096) :
    stepCpu s = exec (decode (s.readMem s.pc.toNat ++ s.readMem (s.pc.toNat + 1))) { s with pc := s.pc + 2 } :=
  stepCpu_of_fetchable hr (decide_eq_true hpc)

/-- A STEP past the end of memory faults and keeps `pc` (rules R55, R214). -/
theorem stepCpu_of_pc_ge (hr : s.status = .running) (hpc : 4096 ≤ s.pc.toNat + 1) :
    stepCpu s = .next { s with status := .faulted (.fetchOutOfBounds s.pc.toNat) s.pc } :=
  stepCpu_of_not_fetchable hr (decide_eq_false (Nat.not_lt.2 hpc))

end Sys2Proof.Machine
end

section
/-! Instruction bytes and the fetch, as `20_memory.md` states them. -/

namespace Sys2Proof.Machine

/-- Settles O4: the two bytes of a word join to the word, and decoding undoes encoding. -/
theorem bytesDecodeBigEndian : Obligations.BytesDecodeBigEndian := by
  refine ⟨fun w => ?_, fun i rest hi => ?_, fun bs hbs => ?_, fun w => ?_⟩
  · simp [wordBytes, highByte_toNat, lowByte_toNat]
  · rw [decodeBytes_wordBytes, decode_encode hi]
  · match bs, hbs with
    | [], _ => rfl
    | [_], _ => rfl
  · have hbytes := decodeBytes_wordBytes w []
    rw [List.append_nil] at hbytes
    simp [decodeTableWord, hbytes]

/-- Settles O6: a request taken off the list changes nothing a fetch reads. -/
theorem stepRunsDecodedInstruction : Obligations.StepRunsDecodedInstruction := by
  intro s i hr hpc hdecode
  refine ⟨fun hnone => ?_, fun rest hstep => ?_⟩
  · rw [step_of_no_request hnone, stepCpu_of_pc_lt hr hpc, hdecode]
  · rw [step_of_step_request hstep, stepCpu_of_pc_lt (s := s.setRequests rest) hr hpc]
    exact congrArg (exec · _) hdecode

/-- Settles O7: the same fetch fault, whichever way the STEP comes. -/
theorem fetchPastEndFaults : Obligations.FetchPastEndFaults := by
  intro s hr hpc
  refine ⟨fun hnone => ?_, fun rest hstep => ?_⟩
  · rw [step_of_no_request hnone, stepCpu_of_pc_ge hr hpc]
  · rw [step_of_step_request hstep, stepCpu_of_pc_ge (s := s.setRequests rest) hr hpc]
    rfl

end Sys2Proof.Machine
end

section
/-! SUPPORT. The memory instructions inside the data bound and past it (`20_memory.md` rule R56, `42_index_memory.md`
rules R150 to R157), and what memory holds after a block store. -/

namespace Sys2Proof.Machine

variable {s : State} {x : Reg}

/-! ### The data bound -/

theorem dataFault_of_le {len : Nat} (h : len = 0 ∨ s.index.toNat + len ≤ memSize) : s.dataFault len = none := by
  rcases s.dataFault_cases len with ⟨-, hd⟩ | ⟨hpos, hlt, -⟩
  · exact hd
  · omega

theorem dataFault_of_lt {len : Nat} (hpos : 0 < len) (h : memSize < s.index.toNat + len) :
    s.dataFault len = some (.memoryOutOfBounds (max s.index.toNat memSize)) := by
  rcases s.dataFault_cases len with ⟨hle, -⟩ | ⟨-, -, hd⟩
  · omega
  · exact hd

/-- The state a fault of the execute part leaves, field by field (rule R212). -/
theorem State.raise_eq_faultedWith (s : State) (f : Fault) : s.raise f = s.faultedWith f := rfl

/-! ### Each memory instruction, inside the bound and past it -/

theorem exec_storeBcd_of_lt (h : s.index.toNat + 2 < 4096) :
    exec (.storeBcd x) s = .next (s.writeBytes s.index.toNat (bcdDigits (s.reg x))) := by
  simp only [exec, execStoreBcd, dataFault_of_le (len := 3) (.inr h)]

theorem exec_storeBcd_of_ge (h : 4096 ≤ s.index.toNat + 2) :
    exec (.storeBcd x) s = .next (s.faultedWith (.memoryOutOfBounds (max s.index.toNat 4096))) := by
  simp only [exec, execStoreBcd, dataFault_of_lt (Nat.succ_pos 2) (Nat.lt_succ_of_le h),
    State.raise_eq_faultedWith]

theorem exec_storeRegs_of_lt (h : s.index.toNat + x.toNat < 4096) :
    exec (.storeRegs x) s = .next (s.writeBytes s.index.toNat (s.readRegs 0 (blockLength x))) := by
  simp only [exec, execStoreRegs, dataFault_of_le (len := blockLength x) (.inr h)]

theorem exec_storeRegs_of_ge (h : 4096 ≤ s.index.toNat + x.toNat) :
    exec (.storeRegs x) s = .next (s.faultedWith (.memoryOutOfBounds (max s.index.toNat 4096))) := by
  simp only [exec, execStoreRegs, dataFault_of_lt (len := blockLength x) (Nat.succ_pos _) (Nat.lt_succ_of_le h),
    State.raise_eq_faultedWith]

theorem exec_loadRegs_of_lt (h : s.index.toNat + x.toNat < 4096) :
    exec (.loadRegs x) s = .next (s.writeRegs 0 (s.readBytes s.index.toNat (blockLength x))) := by
  simp only [exec, execLoadRegs, dataFault_of_le (len := blockLength x) (.inr h)]

theorem exec_loadRegs_of_ge (h : 4096 ≤ s.index.toNat + x.toNat) :
    exec (.loadRegs x) s = .next (s.faultedWith (.memoryOutOfBounds (max s.index.toNat 4096))) := by
  simp only [exec, execLoadRegs, dataFault_of_lt (len := blockLength x) (Nat.succ_pos _) (Nat.lt_succ_of_le h),
    State.raise_eq_faultedWith]

/-! ### A block store -/

@[simp] theorem State.writeBytes_pc (s : State) (a : Nat) (bs : List Byte) : (s.writeBytes a bs).pc = s.pc := by
  rw [State.writeBytes_eq]

@[simp] theorem State.writeBytes_status (s : State) (a : Nat) (bs : List Byte) :
    (s.writeBytes a bs).status = s.status := by
  rw [State.writeBytes_eq]

@[simp] theorem State.writeBytes_ports (s : State) (a : Nat) (bs : List Byte) :
    (s.writeBytes a bs).ports = s.ports := by
  rw [State.writeBytes_eq]

/-- Every byte of memory after a block store at `I`: the stored one inside the range, the old one outside (rules R57,
R65). -/
theorem readMem_writeBytes_index (hw : Memory.wf s.config s.mem = true) {bs : List Byte}
    (hfits : s.index.toNat + bs.length ≤ memSize) (a : Nat) :
    (s.writeBytes s.index.toNat bs).readMem a = s.byteAfterStore bs a := by
  unfold State.byteAfterStore
  cases hin : s.dataRange bs.length a with
  | true =>
    simp only [State.dataRange, Bool.and_eq_true, decide_eq_true_eq] at hin
    obtain ⟨j, rfl⟩ := Nat.exists_eq_add_of_le hin.1
    have hj : j < bs.length := by omega
    rw [State.readMem_writeBytes_in hw _ bs hfits j hj]
    simp [hj]
  | false =>
    simp only [State.dataRange, Bool.and_eq_false_iff, decide_eq_false_iff_not] at hin
    rw [State.readMem_writeBytes_out _ _ _ _ (by omega)]
    simp

/-! ### The bytes the block instructions move -/

/-- The three digits of a byte are bytes themselves (rule R154). -/
theorem bcdDigits_toNat (b : Byte) :
    (bcdDigits b).map BitVec.toNat = [b.toNat / 100, b.toNat / 10 % 10, b.toNat % 10] := by
  have hb : b.toNat < 256 := b.isLt
  simp only [bcdDigits, List.map_cons, List.map_nil, BitVec.toNat_ofNat, List.cons.injEq, and_true]
  omega

theorem regsUpTo_eq_readRegs (s : State) (x : Reg) : s.regsUpTo x = s.readRegs 0 (blockLength x) := by
  refine List.ext_getElem (by simp [State.regsUpTo, blockLength]) fun j _ hj => ?_
  rw [State.readRegs_getElem]
  simp [State.regsUpTo]

end Sys2Proof.Machine
end

section
/-! The memory instructions, as `20_memory.md` states them. -/

namespace Sys2Proof.Machine

/-- Settles O42: the block stored is the digits, and a block store reaches no other byte. -/
theorem storeDecimalDigits : Obligations.StoreDecimalDigits := by
  refine ⟨fun x => decode_encode (i := .storeBcd x) rfl, fun x s hw h => ?_, fun x s => exec_storeBcd_of_ge⟩
  have hfits : s.index.toNat + (bcdDigits (s.reg x)).length ≤ memSize := h
  have hstored := State.readMem_writeBytes_in hw _ _ hfits
  have hdigits := bcdDigits_toNat (s.reg x)
  simp only [bcdDigits, List.map_cons, List.map_nil, List.cons.injEq, and_true] at hdigits
  obtain ⟨hhundreds, htens, hunits⟩ := hdigits
  refine ⟨_, exec_storeBcd_of_lt h, ?_, ?_, ?_, s.writeBytes_frame (bcdDigits (s.reg x))⟩
  · exact (congrArg BitVec.toNat (hstored 0 (by simp [bcdDigits]))).trans hhundreds
  · exact (congrArg BitVec.toNat (hstored 1 (by simp [bcdDigits]))).trans htens
  · exact (congrArg BitVec.toNat (hstored 2 (by simp [bcdDigits]))).trans hunits

/-- Settles O43: the byte stored at `I + r` is register `r`. -/
theorem storeRegisterBlock : Obligations.StoreRegisterBlock := by
  refine ⟨fun x => decode_encode (i := .storeRegs x) rfl, fun x s hw h => ?_, fun x s => exec_storeRegs_of_ge⟩
  have hlen : (s.readRegs 0 (blockLength x)).length = x.toNat + 1 := State.readRegs_length _ _ _
  refine ⟨_, exec_storeRegs_of_lt h, fun r hr => ?_, hlen ▸ s.writeBytes_frame _⟩
  have hfits : s.index.toNat + (s.readRegs 0 (blockLength x)).length ≤ memSize := hlen.symm ▸ h
  rw [State.readMem_writeBytes_in hw _ _ hfits r.toNat (by omega), State.readRegs_getElem]
  simp

/-- Settles O44: the byte loaded into register `r` is the one at `I + r`. -/
theorem loadRegisterBlock : Obligations.LoadRegisterBlock := by
  refine ⟨fun x => decode_encode (i := .loadRegs x) rfl, fun x s h => ?_, fun x s => exec_loadRegs_of_ge⟩
  have hlen : (s.readBytes s.index.toNat (blockLength x)).length = x.toNat + 1 := State.readBytes_length _ _ _
  have hx : x.toNat < 16 := x.isLt
  have hframe := s.writeRegs_frame _ (hlen.trans_le hx)
  rw [hlen] at hframe
  refine ⟨_, exec_loadRegs_of_lt h, fun r hr => ?_, hframe.mono { regs := by simp }⟩
  have hr' : r.toNat < (s.readBytes s.index.toNat (blockLength x)).length := by omega
  rw [State.reg_writeRegs _ _ _ (by omega), if_pos (Nat.zero_le _), Nat.sub_zero, List.getD_eq_getElem _ _ hr',
    State.readBytes_getElem]

/-- The STEP after a block store fetches from the memory the store left (rules R65, R262). -/
theorem step_writeBytes {s : State} (hs : s.Ready) (hw : Memory.wf s.config s.mem = true)
    (hpc : s.pc.toNat + 1 < 4096) {bs : List Byte} (hfits : s.index.toNat + bs.length ≤ memSize) :
    step (s.writeBytes s.index.toNat bs) =
      exec (decode (s.byteAfterStore bs s.pc.toNat ++ s.byteAfterStore bs (s.pc.toNat + 1)))
        { s.writeBytes s.index.toNat bs with pc := s.pc + 2 } := by
  obtain ⟨hr, hnone⟩ := hs
  rw [step_of_no_request (by simpa using hnone), stepCpu_of_pc_lt (by simpa using hr) (by simpa using hpc),
    State.writeBytes_pc, readMem_writeBytes_index hw hfits, readMem_writeBytes_index hw hfits]

/-- Settles O45: for `Fx33` the block stored is the digits, for `Fx55` the registers. -/
theorem storeSeenByNextFetch : Obligations.StoreSeenByNextFetch := by
  refine ⟨fun s x hs hw hpc h => ?_, fun s x hs hw hpc h => ?_⟩
  · exact ⟨_, exec_storeBcd_of_lt h, step_writeBytes hs hw hpc (bs := s.digitsOf x) h⟩
  · rw [regsUpTo_eq_readRegs]
    exact ⟨_, exec_storeRegs_of_lt h, step_writeBytes hs hw hpc (by rwa [State.readRegs_length])⟩

end Sys2Proof.Machine
end

section
/-! SUPPORT. Flips one after the other (`43_display.md` rules R171, R172 (g), R178): a pixel ends flipped when it is
visited an odd number of times, and collides with the visits before it counted. -/

namespace Sys2Proof.Machine

variable {c : Config} {buf : List Host.Cell}

/-- The visits flip the pixel `q` an odd number of times. -/
def flipsOdd (ps : List (Nat × Nat)) (q : Nat × Nat) : Bool := decide (ps.count q % 2 = 1)

@[simp] theorem flipsOdd_nil (q : Nat × Nat) : flipsOdd [] q = false := rfl

theorem flipsOdd_cons (p : Nat × Nat) (ps : List (Nat × Nat)) (q : Nat × Nat) :
    flipsOdd (p :: ps) q = (decide (q = p) ^^ flipsOdd ps q) := by
  unfold flipsOdd
  by_cases h : q = p
  · rcases Nat.mod_two_eq_zero_or_one (ps.count q) with hc | hc <;> subst h <;> simp [hc, Nat.add_mod]
  · simp [h, List.count_cons_of_ne (Ne.symm h)]

theorem getPixel_flipPixel (hw : bufferWf c buf = true) {p : Nat × Nat} (hp : onDisplay c p.1 p.2 = true)
    (q : Nat × Nat) : getPixel c (flipPixel c buf p) q.1 q.2 = (getPixel c buf q.1 q.2 ^^ decide (q = p)) := by
  rw [flipPixel, getPixel_setPixel hw]
  by_cases h : q = p
  · subst h
    simp [hp]
  · simp [hp, h, ← Prod.ext_iff]

/-- Every pixel after the visits (rule R171). -/
theorem getPixel_flipAll (hw : bufferWf c buf = true) {ps : List (Nat × Nat)}
    (hps : ∀ p ∈ ps, onDisplay c p.1 p.2 = true) (q : Nat × Nat) :
    getPixel c (flipAll c buf ps).1 q.1 q.2 = (getPixel c buf q.1 q.2 ^^ flipsOdd ps q) := by
  induction ps generalizing buf with
  | nil => simp [flipAll]
  | cons p ps ih =>
    obtain ⟨hp, hps⟩ := List.forall_mem_cons.1 hps
    simp only [flipAll]
    rw [ih (flipPixel_wf hw p) hps, getPixel_flipPixel hw hp, flipsOdd_cons, Bool.xor_assoc]

/-- A collision is a visit that finds its pixel on, the visits before it counted (rule R172 (g)). -/
theorem flipAll_collides_iff (hw : bufferWf c buf = true) {ps : List (Nat × Nat)}
    (hps : ∀ p ∈ ps, onDisplay c p.1 p.2 = true) :
    (flipAll c buf ps).2 = true ↔
      ∃ k p, ps[k]? = some p ∧ (getPixel c buf p.1 p.2 ^^ flipsOdd (ps.take k) p) = true := by
  induction ps generalizing buf with
  | nil => simp [flipAll]
  | cons p ps ih =>
    obtain ⟨hp, hps⟩ := List.forall_mem_cons.1 hps
    simp only [flipAll, Bool.or_eq_true]
    rw [ih (flipPixel_wf hw p) hps]
    constructor
    · rintro (hfirst | ⟨k, q, hq, hon⟩)
      · exact ⟨0, p, rfl, by simpa using hfirst⟩
      · refine ⟨k + 1, q, hq, ?_⟩
        rwa [getPixel_flipPixel hw hp, Bool.xor_assoc, ← flipsOdd_cons, ← List.take_succ_cons] at hon
    · rintro ⟨k, q, hq, hon⟩
      cases k with
      | zero =>
        cases Option.some.inj hq
        exact .inl (by simpa using hon)
      | succ k =>
        refine .inr ⟨k, q, hq, ?_⟩
        rwa [getPixel_flipPixel hw hp, Bool.xor_assoc, ← flipsOdd_cons, ← List.take_succ_cons]

/-! ### The pixels `Dxyn` visits -/

theorem spriteColumns_eq_filter (b : Byte) (k n : Nat) :
    spriteColumns b k n = (List.range' k n).filter fun j => b.getLsbD (7 - j) := by
  induction n generalizing k with
  | zero => rfl
  | succ n ih => simp only [spriteColumns, List.range'_succ, List.filter_cons, ih]

/-- The points of a sprite in memory, row by row (rule R171). -/
theorem spritePoints_readBytes (s : State) (a r n : Nat) :
    spritePoints r (s.readBytes a n) = (List.range n).flatMap fun j =>
      (spriteColumns (s.readMem (a + j)) 0 8).map fun k => (k, r + j) := by
  induction n generalizing a r with
  | zero => rfl
  | succ n ih =>
    rw [State.readBytes, spritePoints, ih, List.range_succ_eq_map, List.flatMap_cons, List.flatMap_map]
    simp only [Nat.add_zero, Nat.succ_eq_add_one, Nat.add_assoc, Nat.add_comm 1]

theorem wrappedTargets_eq_visited (s : State) (x y : Reg) (n : Nat) :
    wrappedTargets s.config ((s.reg x).toNat % s.config.width) ((s.reg y).toNat % s.config.height)
      (s.readBytes s.index.toNat n) = s.visited x y n := by
  simp only [wrappedTargets, State.visited, spritePoints_readBytes, spriteColumns_eq_filter, List.map_flatMap,
    List.map_map, List.range_eq_range', Nat.zero_add, Function.comp_def]

/-- Wrapping leaves no visited pixel off the display (rule R172 (a)). -/
theorem onDisplay_of_mem_visited {s : State} (hc : configWf s.config = true) {x y : Reg} {n : Nat} :
    ∀ p ∈ s.visited x y n, onDisplay s.config p.1 p.2 = true := by
  simp only [configWf, Bool.and_eq_true, decide_eq_true_eq] at hc
  obtain ⟨⟨⟨⟨hwidth, hheight⟩, -⟩, -⟩, -⟩ := hc
  intro p hp
  simp only [State.visited, List.mem_flatMap, List.mem_map] at hp
  obtain ⟨r, -, k, -, rfl⟩ := hp
  exact (onDisplay_iff _ _ _).2 ⟨Nat.mod_lt _ hwidth, Nat.mod_lt _ hheight⟩

/-! ### `Dxyn` inside the data bound and past it -/

theorem exec_drw_of_lt {s : State} {x y : Reg} {n : Nibble} (h : n = 0 ∨ s.index.toNat + n.toNat - 1 < 4096) :
    exec (.drw x y n) s = .next ((s.setFlag (flipAll s.config s.fb (s.visited x y n.toNat)).2).setFb
      (flipAll s.config s.fb (s.visited x y n.toNat)).1) := by
  have hfits : n.toNat = 0 ∨ s.index.toNat + n.toNat ≤ memSize := by
    rcases h with rfl | h
    · exact .inl rfl
    · exact (Nat.eq_zero_or_pos n.toNat).imp_right fun _ => by simp only [memSize]; omega
  simp only [exec, execDrw, dataFault_of_le hfits, drawWrapped, wrappedTargets_eq_visited]

theorem exec_drw_of_ge {s : State} {x y : Reg} {n : Nibble} (hn : 0 < n.toNat)
    (h : 4096 ≤ s.index.toNat + n.toNat - 1) :
    exec (.drw x y n) s = .next (s.faultedWith (.memoryOutOfBounds (max s.index.toNat 4096))) := by
  have hpast : memSize < s.index.toNat + n.toNat := by simp only [memSize]; omega
  simp only [exec, execDrw, dataFault_of_lt hn hpast, State.raise_eq_faultedWith]

/-! ### The flag -/

theorem flagByte_eq_one_iff (f : Bool) : flagByte f = 1 ↔ f = true := by cases f <;> decide

theorem flagByte_cases (f : Bool) : flagByte f = 0 ∨ flagByte f = 1 := by cases f <;> decide

theorem State.reg_setFlag_VF (s : State) (f : Bool) : (s.setFlag f).reg VF = flagByte f := State.reg_setReg_same s VF _

end Sys2Proof.Machine
end

section
/-! The drawing instruction, as `20_memory.md` bounds its range. -/

namespace Sys2Proof.Machine

/-- Settles O47: `Dxyn` flips the visited pixels in their order, and none of them is off the display. -/
theorem drawFlipsVisitedPixels : Obligations.DrawFlipsVisitedPixels := by
  refine ⟨fun x y n => decode_encode (i := .drw x y n) rfl, fun x y n s hs h => ?_,
    fun x y n s hn => exec_drw_of_ge hn⟩
  obtain ⟨hc, -, hbuf, -⟩ := hs
  have hon := onDisplay_of_mem_visited hc (x := x) (y := y) (n := n.toNat)
  refine ⟨_, exec_drw_of_lt h, fun px py => getPixel_flipAll hbuf hon (px, py), ?_, ?_, ?_⟩
  · rw [State.setFb_reg, State.reg_setFlag_VF]
    exact flagByte_cases _
  · rw [State.setFb_reg, State.reg_setFlag_VF, flagByte_eq_one_iff]
    exact flipAll_collides_iff hbuf hon
  · exact ((s.setReg_frame VF _).mono {}).trans ((State.setFb_frame _ _).mono {})

end Sys2Proof.Machine
end

section
/-! SUPPORT. The decoder reads no more of a word than the row it selects does (`30_encoding.md` rules R84 to R86). -/

namespace Sys2Proof

/-! ### The fields as numbers, and under a mask -/

theorem fieldMajor_toNat (w : Word) : (fieldMajor w).toNat = w.toNat / 4096 := by
  have hw : w.toNat < 65536 := w.isLt
  simp only [fieldMajor, BitVec.extractLsb'_toNat, Nat.shiftRight_eq_div_pow]
  omega

theorem fieldN_toNat (w : Word) : (fieldN w).toNat = w.toNat % 16 := by
  simp [fieldN]

theorem fieldKk_toNat (w : Word) : (fieldKk w).toNat = w.toNat % 256 := by
  simp [fieldKk]

theorem fieldMajor_and (w m : Word) : fieldMajor (w &&& m) = fieldMajor w &&& fieldMajor m :=
  BitVec.extractLsb'_and

theorem fieldN_and (w m : Word) : fieldN (w &&& m) = fieldN w &&& fieldN m := BitVec.extractLsb'_and

theorem fieldKk_and (w m : Word) : fieldKk (w &&& m) = fieldKk w &&& fieldKk m := BitVec.extractLsb'_and

/-! ### The undefined words -/

theorem decodeMajor8_eq_undef_iff (w : Word) :
    decodeMajor8 w = .undef w ↔ (fieldN w).toNat ∈ [8, 9, 0xA, 0xB, 0xC, 0xD, 0xF] := by
  have hn : (fieldN w).toNat < 16 := (fieldN w).isLt
  unfold decodeMajor8
  split
  case h_10 => simp only [imp_false, List.mem_cons, List.not_mem_nil, true_iff] at *; omega
  all_goals simp_all

theorem decodeMajorE_eq_undef_iff (w : Word) :
    decodeMajorE w = .undef w ↔ (fieldKk w).toNat ∉ [0x9E, 0xA1] := by
  unfold decodeMajorE
  split <;> simp_all

theorem decodeMajorF_eq_undef_iff (w : Word) :
    decodeMajorF w = .undef w ↔ (fieldKk w).toNat ∉ [0x07, 0x0A, 0x15, 0x18, 0x1E, 0x29, 0x33, 0x55, 0x65] := by
  unfold decodeMajorF
  split <;> simp_all

/-- Only the majors 5, 8, 9, E and F have undefined words: case `h_k` is major `k - 1`. -/
theorem decode_eq_undef_iff (w : Word) : decode w = .undef w ↔
    ((fieldMajor w).toNat = 5 ∧ (fieldN w).toNat ≠ 0) ∨
    ((fieldMajor w).toNat = 8 ∧ (fieldN w).toNat ∈ [8, 9, 0xA, 0xB, 0xC, 0xD, 0xF]) ∨
    ((fieldMajor w).toNat = 9 ∧ (fieldN w).toNat ≠ 0) ∨
    ((fieldMajor w).toNat = 0xE ∧ (fieldKk w).toNat ∉ [0x9E, 0xA1]) ∨
    ((fieldMajor w).toNat = 0xF ∧
      (fieldKk w).toNat ∉ [0x07, 0x0A, 0x15, 0x18, 0x1E, 0x29, 0x33, 0x55, 0x65]) := by
  have hmajor : (fieldMajor w).toNat < 16 := (fieldMajor w).isLt
  have hzero : fieldN w = 0 ↔ (fieldN w).toNat = 0 := BitVec.toNat_inj.symm
  unfold decode
  split
  case h_1 hm => split_ifs <;> simp [hm]
  case h_6 hm | h_10 hm => split <;> simp_all
  case h_9 hm => simp [hm, decodeMajor8_eq_undef_iff]
  case h_15 hm => simp [hm, decodeMajorE_eq_undef_iff]
  case h_16 =>
    simp only [imp_false] at *
    have hm : (fieldMajor w).toNat = 0xF := by omega
    simp [hm, decodeMajorF_eq_undef_iff]
  case h_2 hm | h_3 hm | h_4 hm | h_5 hm | h_7 hm | h_8 hm | h_11 hm | h_12 hm | h_13 hm | h_14 hm => simp [hm]

/-! ### The row a word selects -/

theorem mnemonic_decodeMajor8_congr {w w' : Word} (h : fieldN w = fieldN w') :
    (decodeMajor8 w).mnemonic = (decodeMajor8 w').mnemonic := by
  unfold decodeMajor8
  rw [h]
  split <;> rfl

theorem mnemonic_decodeMajorE_congr {w w' : Word} (h : fieldKk w = fieldKk w') :
    (decodeMajorE w).mnemonic = (decodeMajorE w').mnemonic := by
  unfold decodeMajorE
  rw [h]
  split <;> rfl

theorem mnemonic_decodeMajorF_congr {w w' : Word} (h : fieldKk w = fieldKk w') :
    (decodeMajorF w).mnemonic = (decodeMajorF w').mnemonic := by
  unfold decodeMajorF
  rw [h]
  split <;> rfl

/-- Two words agree in the selectors the dispatch of rule R84 reads: the major nibble, and below it the low nibble in
the majors 5, 8 and 9, the low byte in the majors E and F. -/
structure SameSelectors (w w' : Word) : Prop where
  major : fieldMajor w = fieldMajor w'
  nibble : (fieldMajor w).toNat ∈ [0x5, 0x8, 0x9] → fieldN w = fieldN w'
  byte : (fieldMajor w).toNat ∈ [0xE, 0xF] → fieldKk w = fieldKk w'

/-- Major 0 is SYS but for the two exact words (rule R88). -/
theorem decode_of_major_zero {w : Word} (hm : (fieldMajor w).toNat = 0) (hcls : w ≠ 0x00E0) (hret : w ≠ 0x00EE) :
    decode w = .sys (fieldNnn w) := by
  have hne (nnn : Addr12) (hw : w ≠ formatNnn 0 nnn) : fieldNnn w ≠ nnn :=
    fun h => hw (formatNnn_of_fields hm h).symm
  simp only [decode, hm]
  rw [if_neg (hne 0x0E0 hcls), if_neg (hne 0x0EE hret)]

/-- The two exact words aside, the selectors decide which instruction it is. -/
theorem SameSelectors.mnemonic_decode_eq {w w' : Word} (h : SameSelectors w w') (hcls : w ≠ 0x00E0)
    (hret : w ≠ 0x00EE) (hcls' : w' ≠ 0x00E0) (hret' : w' ≠ 0x00EE) :
    (decode w).mnemonic = (decode w').mnemonic := by
  obtain ⟨hmajor, hnibble, hbyte⟩ := h
  by_cases hzero : (fieldMajor w).toNat = 0
  · rw [decode_of_major_zero hzero hcls hret, decode_of_major_zero (hmajor ▸ hzero) hcls' hret']
    rfl
  unfold decode
  rw [← hmajor]
  split
  case h_1 hm => exact absurd hm hzero
  case h_6 hm | h_10 hm =>
    rw [hnibble (by simp [hm])]
    split <;> rfl
  case h_9 hm => exact mnemonic_decodeMajor8_congr (hnibble (by simp [hm]))
  case h_15 hm => exact mnemonic_decodeMajorE_congr (hbyte (by simp [hm]))
  case h_16 =>
    have hlt : (fieldMajor w).toNat < 16 := (fieldMajor w).isLt
    simp only [imp_false] at *
    have hm : (fieldMajor w).toNat = 0xF := by omega
    exact mnemonic_decodeMajorF_congr (hbyte (by simp [hm]))
  all_goals rfl

/-- The mask of every row keeps the selectors of its major. -/
theorem mask_keeps_selectors : ∀ r ∈ opcodeTable, fieldMajor r.mask = 0xF ∧
    ((fieldMajor r.value).toNat ∈ [0x5, 0x8, 0x9] → fieldN r.mask = 0xF) ∧
    ((fieldMajor r.value).toNat ∈ [0xE, 0xF] → fieldKk r.mask = 0xFF) := by decide

/-- The value of a row is one of its own words. -/
theorem mnemonic_decode_value : ∀ r ∈ opcodeTable, (decode r.value).mnemonic = r.mnemonic := by decide

theorem mnemonic_ne_undef : ∀ r ∈ opcodeTable, r.mnemonic ≠ "UNDEF" := by decide

/-- Only the exact rows of rule R84 have an exact word as their value, and they look at every bit. -/
theorem mask_of_exact_value : ∀ r ∈ opcodeTable, r.value = 0x00E0 ∨ r.value = 0x00EE → r.mask = 0xFFFF := by
  decide

/-- A word has the selectors of every row it selects. -/
theorem sameSelectors_of_mask {w : Word} {r : OpcodeRow} (hr : r ∈ opcodeTable) (h : w &&& r.mask = r.value) :
    SameSelectors w r.value := by
  obtain ⟨hmajor, hnibble, hbyte⟩ := mask_keeps_selectors r hr
  have hmajor' : fieldMajor w = fieldMajor r.value := by
    rw [← h, fieldMajor_and, hmajor]
    exact BitVec.and_allOnes.symm
  refine ⟨hmajor', fun hm => ?_, fun hm => ?_⟩
  · rw [← h, fieldN_and, hnibble (hmajor' ▸ hm)]
    exact BitVec.and_allOnes.symm
  · rw [← h, fieldKk_and, hbyte (hmajor' ▸ hm)]
    exact BitVec.and_allOnes.symm

/-- Decoding picks the row a word selects: an exact word is decoded outright, and any other has the selectors of a word
of that row. -/
theorem mnemonic_decode_of_rowOf {w : Word} {r : OpcodeRow} (h : rowOf w = some r) :
    (decode w).mnemonic = r.mnemonic := by
  by_cases hcls : w = 0x00E0
  · subst hcls
    cases h
    rfl
  by_cases hret : w = 0x00EE
  · subst hret
    cases h
    rfl
  have hr : r ∈ opcodeTable := List.mem_of_find?_eq_some h
  have hmask : w &&& r.mask = r.value := by simpa using List.find?_some h
  have hexact (hv : r.value = 0x00E0 ∨ r.value = 0x00EE) : w = r.value := by
    rw [← hmask, mask_of_exact_value r hr hv]
    exact BitVec.and_allOnes.symm
  rw [← mnemonic_decode_value r hr]
  exact (sameSelectors_of_mask hr hmask).mnemonic_decode_eq hcls hret
    (fun hv => hcls ((hexact (.inl hv)).trans hv)) (fun hv => hret ((hexact (.inr hv)).trans hv))

/-- A word of a row is not decoded as `UNDEF` (rule R86). -/
theorem rowOf_eq_none_of_decode_undef {w w' : Word} (h : decode w = .undef w') : rowOf w = none := by
  by_contra hsome
  obtain ⟨r, hr⟩ := Option.ne_none_iff_exists'.1 hsome
  have hm := mnemonic_decode_of_rowOf hr
  rw [h] at hm
  exact mnemonic_ne_undef r (List.mem_of_find?_eq_some hr) hm.symm

/-- Whatever a word decodes to is well formed: SYS never names an exact word, `UNDEF` never a word of a row. -/
theorem decode_wellFormed (w : Word) : (decode w).wellFormed = true := by
  cases hd : decode w with
  | sys nnn =>
    have hself : decode (encode (.sys nnn)) = .sys nnn := by rw [← hd, encode_decode]
    have hcls : nnn ≠ 0x0E0 := by
      rintro rfl
      exact absurd hself (by decide)
    have hret : nnn ≠ 0x0EE := by
      rintro rfl
      exact absurd hself (by decide)
    exact Bool.and_eq_true_iff.2 ⟨bne_iff_ne.2 hcls, bne_iff_ne.2 hret⟩
  | undef w' =>
    obtain rfl : w = w' := (encode_decode w).symm.trans (congrArg encode hd)
    exact Option.isNone_iff_eq_none.2 (rowOf_eq_none_of_decode_undef hd)
  | _ => rfl

end Sys2Proof
end

section
/-! The statements of `30_encoding.md`. -/

namespace Sys2Proof.Machine

/-- Settles O1: each field of a well-formed instruction is read back from its place in the format. -/
theorem decodeOfEncode : Obligations.DecodeOfEncode := fun _ => decode_encode

/-- Settles O2: no bit is lost, and nothing a word decodes to belongs to another word. -/
theorem encodeOfDecode : Obligations.EncodeOfDecode := fun w => ⟨encode_decode w, decode_wellFormed w⟩

/-- Settles O3: the mask of a row keeps every selector the dispatch reads. -/
theorem decodeFollowsOpcodeMap : Obligations.DecodeFollowsOpcodeMap := by
  intro w
  split
  case h_1 r h => exact mnemonic_decode_of_rowOf h
  case h_2 h => rw [decode_of_undefinedWord (Option.isNone_iff_eq_none.2 h), Instr.mnemonic]

/-- Settles O9, from what every operation and every instruction answers. -/
theorem stepAlwaysAnswers : Obligations.StepAlwaysAnswers := by
  refine ⟨fun s => ?_, fun i s => ?_⟩
  · obtain ⟨t, ht, -⟩ := step_storageChange s
    exact ⟨t, ht⟩
  · obtain ⟨t, ht, -⟩ := exec_storageChange i s
    exact ⟨t, ht⟩

/-- Settles O23: the fields of the dispatch are quotient and remainders of the word. -/
theorem undefinedWordsAreNoOps : Obligations.UndefinedWordsAreNoOps := by
  refine ⟨fun w => ?_, fun _ _ => rfl, fun s hs hpc hdecode => ?_⟩
  · rw [decode_eq_undef_iff, fieldMajor_toNat, fieldN_toNat, fieldKk_toNat]
  · obtain ⟨hrunning, hnone⟩ := hs
    rw [step_of_no_request hnone, stepCpu_of_pc_lt hrunning hpc, hdecode]
    rfl

/-- Settles O5: ten words, decoded. -/
theorem sampleWordsDecode : Obligations.SampleWordsDecode := by
  unfold Obligations.SampleWordsDecode
  decide

end Sys2Proof.Machine
end

section
/-! SUPPORT. Control flow, case by case: where a skip leaves `pc`, a call and a return with room on the stack and
without (`40_control_flow.md` rules R102 to R108), the STEP of a ready machine that can fetch nothing,
and the first STEP after a LOAD (`70_reset_and_hazards.md` rules R256 to R258). -/

namespace Sys2Proof.Machine

variable {s t : State}

/-! ### Skips -/

theorem State.skipIf_pc (s : State) (cond : Bool) : (s.skipIf cond).pc = s.skipPc cond := by
  cases cond <;> rfl

/-- A skip on equality (rules R104, R106). -/
theorem State.skipIf_beq_pc (s : State) (a b : Byte) :
    (s.skipIf (a == b)).pc = if a = b then s.pc + 2 else s.pc := by
  simp [State.skipIf_pc, State.skipPc]

/-- A skip on inequality (rules R105, R107). -/
theorem State.skipIf_bne_pc (s : State) (a b : Byte) :
    (s.skipIf (a != b)).pc = if a = b then s.pc else s.pc + 2 := by
  simp [State.skipIf_pc, State.skipPc]

/-! ### The stack -/

theorem exec_call_of_sp_eq (nnn : Addr12) (j : Fin 16) (h : s.sp.val = j.val) :
    exec (.call nnn) s =
      .next ({ s with stack := s.stack.set j.val s.pc j.isLt, sp := j.succ }.setPc (zextAddr nnn)) := by
  rcases s.push_cases s.pc with ⟨hfull, -⟩ | ⟨_, hp⟩
  · omega
  · simp only [exec, execCall, hp, h]
    rfl

theorem exec_call_of_full (nnn : Addr12) (h : s.sp.val = 16) :
    exec (.call nnn) s = .next (s.faultedWith .stackOverflow) := by
  rcases s.push_cases s.pc with ⟨-, hp⟩ | ⟨hlt, -⟩
  · simp only [exec, execCall, hp, State.raise_eq_faultedWith]
  · omega

theorem exec_ret_of_sp_eq (j : Fin 16) (h : s.sp.val = j.val + 1) :
    exec .ret s = .next ({ s with sp := j.castSucc }.setPc s.stack[j]) := by
  rcases s.pop_cases with ⟨hempty, -⟩ | ⟨_, _, hp⟩
  · omega
  · simp only [exec, execRet, hp, h, Nat.add_sub_cancel]
    rfl

theorem exec_ret_of_empty (h : s.sp.val = 0) : exec .ret s = .next (s.faultedWith .stackUnderflow) := by
  rcases s.pop_cases with ⟨-, hp⟩ | ⟨hpos, -⟩
  · simp only [exec, execRet, hp, State.raise_eq_faultedWith]
  · omega

/-- A frame that may change `pc` and `SP` does not if both are back where they were. -/
theorem Frame.of_pc_sp_restored {m : Touched} (h : Frame m s t) (hpc : t.pc = s.pc) (hsp : t.sp = s.sp) :
    Frame { m with pc := false, sp := false } s t := by
  obtain ⟨h0, h1, -, h3, -, hrest⟩ := h
  exact ⟨h0, h1, fun _ => hpc, h3, fun _ => hsp, hrest⟩

/-! ### Undefined words of the majors 5 and 9 -/

/-- Another last digit than 0 makes a word of the majors 5 and 9 undefined (rule R87). -/
theorem decode_formatXyn_eq_undef {m n : Nibble} (hm : m = 5 ∨ m = 9) (hn : n ≠ 0) (x y : Reg) :
    decode (formatXyn m x y n) = .undef (formatXyn m x y n) := by
  rcases hm with rfl | rfl <;> simp only [decode, fieldMajor_formatXyn, fieldN_formatXyn] <;> exact if_neg hn

/-! ### A STEP that can fetch nothing -/

/-- With no other operation requested, a STEP past the end of memory faults and keeps `pc` (rules R55, R214). -/
theorem State.Ready.step_of_pc_ge (hs : s.Ready) (hpc : 4096 ≤ s.pc.toNat + 1) :
    step s = .next { s with status := .faulted (.fetchOutOfBounds s.pc.toNat) s.pc } := by
  obtain ⟨hrunning, hnone⟩ := hs
  rw [step_of_no_request hnone, stepCpu_of_pc_ge hrunning hpc]

/-! ### A LOAD that fits, and the STEP after it -/

theorem performLoad_of_length_le {rom : List Byte} (h : rom.length ≤ maxRom) :
    performLoad rom s = (s.writeBytes programBase.toNat rom).setPc programBase := by
  rcases load_cases rom s with ⟨hlt, -⟩ | ⟨-, hload⟩
  · omega
  · exact performLoad_of_ok hload

/-- A LOAD puts each byte of its image at its place (rule R257). -/
theorem readMem_performLoad (hw : Memory.wf s.config s.mem = true) {rom : List Byte}
    (h : rom.length ≤ maxRom) (j : Nat) (hj : j < rom.length) :
    (performLoad rom s).readMem (programBase.toNat + j) = rom[j] := by
  rw [performLoad_of_length_le h]
  exact State.readMem_writeBytes_in hw _ _ (Nat.add_le_add_left h programBase.toNat) j hj

/-- The STEP requested after a LOAD runs the first two bytes of the image (rules R256, R258). -/
theorem step_performLoad (hr : s.status = .running) (hw : Memory.wf s.config s.mem = true)
    {ops : List Op} (hreq : s.ports.requests = .step :: ops) {hi lo : Byte} {rest : List Byte}
    {u : State} (hrom : (hi :: lo :: rest).length ≤ maxRom) (hu : performLoad (hi :: lo :: rest) s = u) :
    step u = exec (decode (hi ++ lo)) { u with pc := 0x202, ports := { u.ports with requests := ops } } := by
  have hhigh := readMem_performLoad hw hrom 0 (Nat.succ_pos _)
  have hlow := readMem_performLoad hw hrom 1 (Nat.succ_lt_succ (Nat.succ_pos _))
  rw [hu] at hhigh hlow
  rw [performLoad_of_length_le hrom] at hu
  have hpc : u.pc = 0x200 := hu ▸ rfl
  have hstatus : u.status = .running := by rw [← hu]; simpa using hr
  have hports : u.ports.requests = .step :: ops := by rw [← hu]; simpa using hreq
  have hdecode : decode (u.readMem u.pc.toNat ++ u.readMem (u.pc.toNat + 1)) = decode (hi ++ lo) := by
    rw [hpc]
    exact congrArg decode (congrArg₂ (· ++ ·) hhigh hlow)
  have hstep := (stepRunsDecodedInstruction u _ hstatus (by rw [hpc]; decide) hdecode).2 ops hports
  rwa [hpc] at hstep

end Sys2Proof.Machine
end

section
/-! The statements of `40_control_flow.md`, and the boot of `70_reset_and_hazards.md` rule R258. -/

namespace Sys2Proof.Machine

/-- Settles O22: the two exact words of major 0 aside, `nnn` is read back and never used. -/
theorem sysIsNoOp : Obligations.SysIsNoOp := by
  refine ⟨fun nnn hcls hret => ?_, fun _ _ => rfl⟩
  have hwf : (Instr.sys nnn).wellFormed = true :=
    Bool.and_eq_true_iff.2 ⟨bne_iff_ne.2 hcls, bne_iff_ne.2 hret⟩
  exact decode_encode (i := .sys nnn) hwf

/-- Settles O24, by the two cases of a pop. -/
theorem returnPopsPc : Obligations.ReturnPopsPc := by
  refine ⟨by decide, fun s j hj => ?_, fun s => exec_ret_of_empty⟩
  exact ⟨_, exec_ret_of_sp_eq j hj, rfl, rfl, s.popped_frame _ _⟩

/-- Settles O25: `nnn` becomes `pc` unchanged, and at 0xFFF nothing can be fetched. -/
theorem jumpSetsPc : Obligations.JumpSetsPc := by
  refine ⟨fun nnn => decode_encode (i := .jp nnn) rfl, fun nnn s => ?_, fun s t hs h => ?_⟩
  · exact ⟨_, rfl, zextAddr_toNat nnn, s.setPc_frame _⟩
  · obtain rfl : s.setPc (zextAddr 0xFFF) = t := Host.Outcome.next.inj h
    exact State.Ready.step_of_pc_ge (s := s.setPc (zextAddr 0xFFF)) hs (by decide : 4096 ≤ 0xFFF + 1)

/-- Settles O26, by the two cases of a push. -/
theorem callPushesPc : Obligations.CallPushesPc := by
  refine ⟨fun nnn => decode_encode (i := .call nnn) rfl, fun nnn s j hj => ?_, fun nnn s => exec_call_of_full nnn⟩
  refine ⟨_, exec_call_of_sp_eq nnn j hj, Vector.getElem_set_self j.isLt, rfl, zextAddr_toNat nnn, ?_⟩
  have hframe := s.pushed_frame (hj ▸ j.isLt) s.pc (zextAddr nnn) j.succ
  simpa only [hj] using hframe

/-- Settles O27: the return pops the entry the call has pushed, and a change of `pc` in between reaches neither the
entry nor `SP`. -/
theorem callThenReturn : Obligations.CallThenReturn := by
  intro nnn s pc' hsp
  obtain ⟨-, hcall, -⟩ := callPushesPc
  obtain ⟨-, hret, -⟩ := returnPopsPc
  obtain ⟨t, ht, hentry, htsp, -, hcallFrame⟩ := hcall nnn s ⟨s.sp.val, hsp⟩ rfl
  obtain ⟨u, hu, hupc, husp, hretFrame⟩ := hret (t.setPc pc') ⟨s.sp.val, hsp⟩ htsp
  have hpc : u.pc = s.pc := hupc.trans hentry
  have hsp' : u.sp = s.sp := Fin.ext husp
  have hframe := hcallFrame.trans (((t.setPc_frame pc').mono {}).trans (hretFrame.mono {}))
  exact ⟨t, u, ht, hu, hpc, hsp', hframe.of_pc_sp_restored hpc hsp'⟩

/-- Settles O28: a skip taken at 0xFFE or above leaves `pc` where nothing can be fetched. -/
theorem skipOnImmediate : Obligations.SkipOnImmediate := by
  refine ⟨fun x kk => ⟨decode_encode (i := .seImm x kk) rfl, decode_encode (i := .sneImm x kk) rfl⟩,
    fun x kk s => ⟨_, rfl, s.skipIf_beq_pc _ _, s.skipIf_frame _⟩,
    fun x kk s => ⟨_, rfl, s.skipIf_bne_pc _ _, s.skipIf_frame _⟩, fun x kk s t hs hlow hhigh htaken => ?_⟩
  have ht : s.setPc (s.pc + 2) = t := by
    rcases htaken with ⟨heq, h⟩ | ⟨hne, h⟩
    · simpa [exec, execSeImm, State.skipIf, heq] using h
    · simpa [exec, execSneImm, State.skipIf, hne] using h
  subst ht
  have hpc : (s.pc + 2).toNat = s.pc.toNat + 2 := by bv_omega
  have hstep := State.Ready.step_of_pc_ge (s := s.setPc (s.pc + 2)) hs (by rw [State.setPc_pc]; omega)
  rwa [State.setPc_pc, hpc] at hstep

/-- Settles O29, by the same two skips as O28. -/
theorem skipOnRegisters : Obligations.SkipOnRegisters := by
  refine ⟨fun x y => ⟨decode_encode (i := .seReg x y) rfl, decode_encode (i := .sneReg x y) rfl⟩,
    fun x y n hn => ?_, fun x y s => ⟨_, rfl, s.skipIf_beq_pc _ _, s.skipIf_frame _⟩,
    fun x y s => ⟨_, rfl, s.skipIf_bne_pc _ _, s.skipIf_frame _⟩⟩
  exact ⟨decode_formatXyn_eq_undef (.inl rfl) hn x y, decode_formatXyn_eq_undef (.inr rfl) hn x y⟩

/-- Settles O30: the sum never wraps, and from 0xFFF on nothing can be fetched where it points. -/
theorem jumpPlusV0 : Obligations.JumpPlusV0 := by
  refine ⟨fun nnn => decode_encode (i := .jpV0 nnn) rfl, fun nnn s => ?_, fun nnn s t hs h hsum => ?_⟩
  · exact ⟨_, rfl, jumpV0Target_toNat s nnn, s.setPc_frame _⟩
  · obtain rfl : s.setPc (jumpV0Target s nnn) = t := Host.Outcome.next.inj h
    rw [← jumpV0Target_toNat] at hsum ⊢
    exact State.Ready.step_of_pc_ge (s := s.setPc (jumpV0Target s nnn)) hs (Nat.succ_le_succ hsum)

/-- Settles O60: RESET leaves a running machine whose memory is in canonical form, whatever it was before. -/
theorem bootRunsFirstWord : Obligations.BootRunsFirstWord := by
  intro s hi lo rest ops hlen hreq
  have hrom : (hi :: lo :: rest).length ≤ maxRom := Nat.succ_le_succ (Nat.succ_le_succ hlen)
  refine ⟨_, _, step_of_reset_request hreq, step_of_load_request rfl, ?_⟩
  exact step_performLoad (s := (performReset _).setRequests _) rfl rfl rfl hrom rfl

end Sys2Proof.Machine
end

section
/-! SUPPORT. The register instructions in numbers: the flag bytes, the two results a shift leaves, the difference taken
after the flag is written, and the random byte (`41_alu.md` rules R127 to R134). -/

namespace Sys2Proof.Machine

variable {s : State}

/-! ### The flags as numbers -/

theorem flagByte_toNat (f : Bool) : (flagByte f).toNat = f.toNat := by cases f <;> rfl

/-- The carry of rule R127, as the byte stored. -/
theorem flagByte_carryOut (a b : Byte) :
    flagByte (carryOut a b) = if 255 < a.toNat + b.toNat then 1 else 0 := by
  simp [flagByte, carryOut]

/-- The flag of a subtraction is strict (rules R128, R130). -/
theorem greater_toNat (a b : Byte) : (greater a b).toNat = if b.toNat < a.toNat then 1 else 0 := by
  rw [greater, Bool.toNat, Bool.cond_decide]

theorem bitOutRight_toNat (a : Byte) : (bitOutRight a).toNat = a.toNat % 2 := by
  rw [bitOutRight, BitVec.getLsbD, Nat.toNat_testBit, Nat.pow_zero, Nat.div_one]

theorem bitOutLeft_toNat (a : Byte) : (bitOutLeft a).toNat = a.toNat / 128 := by
  rw [bitOutLeft, BitVec.getLsbD, Nat.toNat_testBit]
  have := a.isLt
  omega

/-! ### The shifted bytes -/

theorem shiftRight_one_toNat (a : Byte) : (a >>> 1).toNat = a.toNat / 2 := by
  rw [BitVec.toNat_ushiftRight, Nat.shiftRight_one]

theorem shiftLeft_one_toNat (a : Byte) : (a <<< 1).toNat = 2 * a.toNat % 256 := by
  rw [BitVec.toNat_shiftLeft, Nat.shiftLeft_eq, Nat.pow_one, Nat.mul_comm]

/-- A flag is 0 or 1, and a right shift leaves 0 of it (decision D8). -/
theorem flagByte_shiftRight_one (f : Bool) : flagByte f >>> 1 = 0 := by cases f <;> rfl

/-- A flag shifted left does not wrap (decision D8). -/
theorem flagByte_shiftLeft_one_toNat (f : Bool) : (flagByte f <<< 1).toNat = 2 * f.toNat := by cases f <;> rfl

/-! ### A flag and then a result -/

theorem State.reg_setFlag_of_ne {r : Reg} (h : r ≠ VF) (f : Bool) : (s.setFlag f).reg r = s.reg r := by
  rw [State.reg_setFlag, if_neg h]

/-- The result's write keeps the flag unless its destination is `VF` (rule R134). -/
theorem State.reg_VF_setFlag_setReg {x : Reg} (h : x ≠ VF) (f : Bool) (b : Byte) :
    ((s.setFlag f).setReg x b).reg VF = flagByte f := by
  rw [State.reg_setReg, if_neg h.symm, State.reg_setFlag_VF]

/-- A register read after the flag is written: the flag in place of `VF` (decision D8). -/
theorem State.reg_setFlag_toNat (s : State) (f : Bool) (r : Reg) :
    ((s.setFlag f).reg r).toNat = if r = VF then f.toNat else (s.reg r).toNat := by
  rw [State.reg_setFlag, apply_ite BitVec.toNat, flagByte_toNat]

/-- What a difference leaves in its destination, for every choice of the three registers: both operands are read after
the flag is written (rules R128, R130; decision D8). -/
theorem State.reg_setReg_sub_setFlag_toNat (s : State) (f : Bool) (x p q : Reg) :
    (((s.setFlag f).setReg x ((s.setFlag f).reg p - (s.setFlag f).reg q)).reg x).toNat =
      ((if p = VF then f.toNat else (s.reg p).toNat) + 256 -
        (if q = VF then f.toNat else (s.reg q).toNat)) % 256 := by
  rw [State.reg_setReg_same, ← s.reg_setFlag_toNat, ← s.reg_setFlag_toNat]
  bv_omega

/-- A difference of `VF` and itself leaves 0 (decision D8). -/
theorem State.reg_setReg_sub_self (s : State) (x p : Reg) : (s.setReg x (s.reg p - s.reg p)).reg x = 0 :=
  (s.reg_setReg_same x _).trans (BitVec.sub_self _)

/-! ### The random byte -/

/-- The port delivers one byte at a time, and `drawRand` takes it (rule R233). -/
theorem State.drawRand_of_delivered {b : Byte} {q : Ports} (h : RandDelivered s.ports b q) :
    s.drawRand = (b, { s with ports := q }) := by
  rcases h with ⟨rest, hbytes, rfl⟩ | ⟨hbytes, rfl, rfl⟩
  · exact s.drawRand_scripted b rest hbytes
  · exact s.drawRand_free hbytes

theorem State.drawRand_delivered (s : State) : RandDelivered s.ports s.drawRand.1 s.drawRand.2.ports := by
  cases hbytes : s.ports.randBytes with
  | nil =>
    rw [s.drawRand_free hbytes]
    exact .inr ⟨hbytes, rfl, rfl⟩
  | cons b rest =>
    rw [s.drawRand_scripted b rest hbytes]
    exact .inl ⟨rest, hbytes, rfl⟩

theorem exec_rnd_of_delivered {b : Byte} {q : Ports} (h : RandDelivered s.ports b q) (x : Reg) (kk : Byte) :
    exec (.rnd x kk) s = .next ({ s with ports := q }.setReg x (b &&& kk)) := by
  rw [exec, execRnd, State.drawRand_of_delivered h]

end Sys2Proof.Machine
end

section
/-! The statements of `41_alu.md`. -/

namespace Sys2Proof.Machine

/-- Settles O35: the flag is written first, and the subtraction reads it wherever an operand is `VF`. -/
theorem subtractWithFlag : Obligations.SubtractWithFlag := by
  refine ⟨fun x y => decode_encode (i := .subReg x y) rfl, fun x y s f hf => ?_⟩
  rw [← greater_toNat] at hf
  subst hf
  have hdiff := s.reg_setReg_sub_setFlag_toNat (greater (s.reg x) (s.reg y)) x x y
  refine ⟨_, rfl, fun hx => ?_, fun hx hy => ?_, fun hx hy => ?_, fun hx hy => ?_, fun hx hy => ?_,
    s.setFlag_setReg_frame _ _ _⟩
  · rw [State.reg_VF_setFlag_setReg hx, flagByte_toNat]
  · rw [hdiff, if_neg hx, if_neg hy]
  · rw [hdiff, if_neg hx, if_pos hy]
  · subst hx
    rw [hdiff, if_pos rfl, if_neg hy]
  · subst hx hy
    exact State.reg_setReg_sub_self _ _ _

/-- Settles O36, as O35 with the operands of the subtraction exchanged. -/
theorem subtractReversedWithFlag : Obligations.SubtractReversedWithFlag := by
  refine ⟨fun x y => decode_encode (i := .subnReg x y) rfl, fun x y s f hf => ?_⟩
  rw [← greater_toNat] at hf
  subst hf
  have hdiff := s.reg_setReg_sub_setFlag_toNat (greater (s.reg y) (s.reg x)) x y x
  refine ⟨_, rfl, fun hx => ?_, fun hx hy => ?_, fun hx hy => ?_, fun hx hy => ?_, fun hx hy => ?_,
    s.setFlag_setReg_frame _ _ _⟩
  · rw [State.reg_VF_setFlag_setReg hx, flagByte_toNat]
  · rw [hdiff, if_neg hx, if_neg hy]
  · rw [hdiff, if_neg hx, if_pos hy]
  · subst hx
    rw [hdiff, if_pos rfl, if_neg hy]
  · subst hx hy
    exact State.reg_setReg_sub_self _ _ _

/-- Settles O31: one register write, whichever register it is. -/
theorem loadRegister : Obligations.LoadRegister :=
  ⟨fun x kk => decode_encode (i := .ldImm x kk) rfl, fun x y => decode_encode (i := .ldReg x y) rfl,
    fun x kk s => ⟨_, rfl, s.reg_setReg_same x kk, s.setReg_frame x kk⟩,
    fun x y s => ⟨_, rfl, s.reg_setReg_same x (s.reg y), s.setReg_frame x (s.reg y)⟩⟩

/-- Settles O32: a sum of two bytes is one modulo 256, and its write is the only one. -/
theorem addImmediate : Obligations.AddImmediate := by
  refine ⟨fun x kk => decode_encode (i := .addImm x kk) rfl, fun x kk s => ⟨_, rfl, ?_, s.setReg_frame _ _⟩⟩
  rw [State.reg_setReg_same, BitVec.toNat_add]

/-- Settles O33: the three operations act on each bit by itself, and the result's write is the only one. -/
theorem logicBitByBit : Obligations.LogicBitByBit := by
  refine ⟨fun x y => ⟨decode_encode (i := .orReg x y) rfl, decode_encode (i := .andReg x y) rfl,
      decode_encode (i := .xorReg x y) rfl⟩,
    fun x y s => ⟨_, rfl, fun j => ?_, s.setReg_frame _ _⟩, fun x y s => ⟨_, rfl, fun j => ?_, s.setReg_frame _ _⟩,
    fun x y s => ⟨_, rfl, fun j => ?_, s.setReg_frame _ _⟩⟩
  · rw [State.reg_setReg_same, BitVec.getLsbD_or]
  · rw [State.reg_setReg_same, BitVec.getLsbD_and]
  · rw [State.reg_setReg_same, BitVec.getLsbD_xor]

/-- Settles O34: the sum is taken from the registers as they were, and its write is the last. -/
theorem addWithCarry : Obligations.AddWithCarry := by
  refine ⟨fun x y => decode_encode (i := .addReg x y) rfl,
    fun x y s => ⟨_, rfl, ?_, fun hx => ?_, s.setFlag_setReg_frame _ _ _⟩⟩
  · rw [State.reg_setReg_same, BitVec.toNat_add]
  · rw [State.reg_VF_setFlag_setReg hx, flagByte_carryOut]

/-- Settles O37: where `x` is `VF`, it is the flag just written that is shifted. -/
theorem shiftRight : Obligations.ShiftRight := by
  refine ⟨fun x y => decode_encode (i := .shr x y) rfl,
    fun x y s => ⟨_, rfl, fun hx => ⟨?_, ?_⟩, fun hx => ?_, s.setFlag_setReg_frame _ _ _⟩⟩
  · rw [State.reg_VF_setFlag_setReg hx, flagByte_toNat, bitOutRight_toNat]
  · rw [State.reg_setReg_same, State.reg_setFlag_of_ne hx, shiftRight_one_toNat]
  · rw [hx, State.reg_setReg_same, State.reg_setFlag_VF, flagByte_shiftRight_one]

/-- Settles O38, as O37 to the left: the flag just written is doubled where `x` is `VF`. -/
theorem shiftLeft : Obligations.ShiftLeft := by
  refine ⟨fun x y => decode_encode (i := .shl x y) rfl,
    fun x y s => ⟨_, rfl, fun hx => ⟨?_, ?_⟩, fun hx => ?_, s.setFlag_setReg_frame _ _ _⟩⟩
  · rw [State.reg_VF_setFlag_setReg hx, flagByte_toNat, bitOutLeft_toNat]
  · rw [State.reg_setReg_same, State.reg_setFlag_of_ne hx, shiftLeft_one_toNat]
  · rw [hx, State.reg_setReg_same, State.reg_setFlag_VF, flagByte_shiftLeft_one_toNat, bitOutLeft_toNat]

/-- Settles O39: what the port delivers fixes the byte drawn and the port after it. -/
theorem randomMasked : Obligations.RandomMasked := by
  refine ⟨fun x kk => decode_encode (i := .rnd x kk) rfl, State.drawRand_delivered, fun x kk s r q hr => ?_⟩
  have hexec := exec_rnd_of_delivered hr x kk
  refine ⟨_, hexec, fun j => ?_, rfl, execFrame _ _ _ hexec⟩
  rw [State.reg_setReg_same, BitVec.getLsbD_and]

end Sys2Proof.Machine
end

section
/-! SUPPORT. The words the index register is loaded with, in numbers (`42_index_memory.md` rules R152, R153). -/

namespace Sys2Proof.Machine

theorem zextByte_toNat (b : Byte) : (zextByte b).toNat = b.toNat :=
  BitVec.toNat_setWidth_of_le (by decide)

/-- `FONT_BASE` is 0, and the largest byte gives 1275: no product reaches 65536 (decision D27). -/
theorem glyphAddress_toNat (b : Byte) : (glyphAddress b).toNat = 5 * b.toNat := by
  have hfits : 5 * b.toNat < 65536 := by have := b.isLt; omega
  calc (glyphAddress b).toNat = 5 * (zextByte b).toNat % 65536 := by simp [glyphAddress]
    _ = 5 * b.toNat := by rw [zextByte_toNat, Nat.mod_eq_of_lt hfits]

end Sys2Proof.Machine
end

section
/-! The statements of `42_index_memory.md` about the index register alone. -/

namespace Sys2Proof.Machine

/-- Settles O40: an address widened to a word keeps its value, and the index register is the only piece written. -/
theorem loadIndex : Obligations.LoadIndex :=
  ⟨fun nnn => decode_encode (i := .ldI nnn) rfl,
    fun nnn s => ⟨_, rfl, zextAddr_toNat nnn, s.setIndex_frame (zextAddr nnn)⟩⟩

/-- Settles O41: a sum of two words is one modulo 65536, and five times a byte fits a word unreduced. -/
theorem indexArithmetic : Obligations.IndexArithmetic := by
  refine ⟨fun x => ⟨decode_encode (i := .addI x) rfl, decode_encode (i := .ldFont x) rfl⟩,
    fun x s => ⟨_, rfl, ?_, s.setIndex_frame _⟩,
    fun x s => ⟨_, rfl, glyphAddress_toNat (s.reg x), s.setIndex_frame _⟩⟩
  rw [State.setIndex_index, BitVec.toNat_add, zextByte_toNat]

end Sys2Proof.Machine
end

section
/-! SUPPORT. Drawing as an XOR (`43_display.md` rules R171, R176, R177): whichever flips a drawing performs, it changes
the packed buffer by the same bits every time; and where no pixel is visited twice, it flips exactly the visited ones. -/

namespace Sys2Proof.Machine

variable {c : Config} {buf : List Host.Cell}

/-! ### The same flips twice -/

/-- One bit of the packed buffer after a flip, on the display or off it (rules R35, R178). -/
theorem bufByte_flipPixel_getLsbD (hw : bufferWf c buf = true) (p : Nat × Nat) (k j : Nat) :
    (bufByte (flipPixel c buf p) k).getLsbD j = ((bufByte buf k).getLsbD j ^^
      decide (onDisplay c p.1 p.2 = true ∧ k = pixelByte c p.1 p.2 ∧ j = pixelBit p.1)) := by
  unfold flipPixel
  cases h : onDisplay c p.1 p.2 with
  | false => simp [setPixel_of_not_onDisplay h]
  | true =>
    rw [bufByte_setPixel_getLsbD hw h, getPixel_of_onDisplay h]
    by_cases hkj : k = pixelByte c p.1 p.2 ∧ j = pixelBit p.1
    · obtain ⟨rfl, rfl⟩ := hkj
      simp
    · simp [hkj]

/-- Flips toggle the same bits in every buffer, for which pixel stands where does not depend on the picture. -/
theorem flipAll_eq_xor_mask (c : Config) (ps : List (Nat × Nat)) :
    ∃ mask : Nat → Nat → Bool, ∀ buf, bufferWf c buf = true → ∀ k j,
      (bufByte (flipAll c buf ps).1 k).getLsbD j = ((bufByte buf k).getLsbD j ^^ mask k j) := by
  induction ps with
  | nil => exact ⟨fun _ _ => false, fun buf _ k j => by simp [flipAll]⟩
  | cons p ps ih =>
    obtain ⟨mask, hmask⟩ := ih
    refine ⟨fun k j =>
      decide (onDisplay c p.1 p.2 = true ∧ k = pixelByte c p.1 p.2 ∧ j = pixelBit p.1) ^^ mask k j,
      fun buf hw k j => ?_⟩
    rw [← Bool.xor_assoc, ← bufByte_flipPixel_getLsbD hw]
    exact hmask _ (flipPixel_wf hw p) k j

/-- The same flips twice give the buffer back, as a list, since it is in canonical form (rule R177). -/
theorem flipAll_flipAll (hw : bufferWf c buf = true) (ps : List (Nat × Nat)) :
    (flipAll c (flipAll c buf ps).1 ps).1 = buf := by
  have hw₁ := flipAll_wf hw ps
  obtain ⟨mask, hmask⟩ := flipAll_eq_xor_mask c ps
  refine cells_ext (flipAll_wf hw₁ ps) hw fun k => BitVec.eq_of_getLsbD_eq fun j _ => ?_
  calc (bufByte (flipAll c (flipAll c buf ps).1 ps).1 k).getLsbD j
      = (((bufByte buf k).getLsbD j ^^ mask k j) ^^ mask k j) := by rw [hmask _ hw₁, hmask _ hw]
    _ = (bufByte buf k).getLsbD j := by rw [Bool.xor_assoc, Bool.xor_self, Bool.xor_false]

/-! ### Flips off the display -/

/-- A pixel after a flip on the display or off it (rules R174, R175, R178). -/
theorem getPixel_flipPixel_clipped (hw : bufferWf c buf = true) (p q : Nat × Nat) :
    getPixel c (flipPixel c buf p) q.1 q.2 =
      (getPixel c buf q.1 q.2 ^^ (onDisplay c q.1 q.2 && decide (q = p))) := by
  rw [flipPixel, getPixel_setPixel hw]
  by_cases h : q = p
  · subst h
    cases hq : onDisplay c q.1 q.2 <;> simp
  · rw [if_neg fun ⟨hx, hy, _⟩ => h (Prod.ext hx hy)]
    simp [h]

/-- Every pixel after visits on the display or off it (rules R175, R176). -/
theorem getPixel_flipAll_clipped (hw : bufferWf c buf = true) (ps : List (Nat × Nat)) (q : Nat × Nat) :
    getPixel c (flipAll c buf ps).1 q.1 q.2 =
      (getPixel c buf q.1 q.2 ^^ (onDisplay c q.1 q.2 && flipsOdd ps q)) := by
  induction ps generalizing buf with
  | nil => simp [flipAll]
  | cons p ps ih =>
    simp only [flipAll]
    rw [ih (flipPixel_wf hw p), getPixel_flipPixel_clipped hw, flipsOdd_cons, Bool.and_xor_distrib_left,
      Bool.xor_assoc]

/-! ### Visits without repetition -/

theorem flipsOdd_of_nodup {ps : List (Nat × Nat)} (hps : ps.Nodup) (q : Nat × Nat) :
    flipsOdd ps q = decide (q ∈ ps) := by
  unfold flipsOdd
  rw [List.Nodup.count hps]
  split <;> simp_all

/-- Where no pixel is visited twice, a collision is a visit of a pixel that was on before the drawing (rule
R172 (g)). -/
theorem flipAll_collides_iff_of_nodup (hw : bufferWf c buf = true) {ps : List (Nat × Nat)}
    (hon : ∀ p ∈ ps, onDisplay c p.1 p.2 = true) (hps : ps.Nodup) :
    (flipAll c buf ps).2 = true ↔ ∃ p ∈ ps, getPixel c buf p.1 p.2 = true := by
  induction ps generalizing buf with
  | nil => simp [flipAll]
  | cons p ps ih =>
    obtain ⟨hp, hon⟩ := List.forall_mem_cons.1 hon
    obtain ⟨hnot, hps⟩ := List.nodup_cons.1 hps
    have hlater : ∀ q ∈ ps, getPixel c (flipPixel c buf p) q.1 q.2 = getPixel c buf q.1 q.2 := fun q hq => by
      have hne : q ≠ p := fun h => hnot (h ▸ hq)
      rw [getPixel_flipPixel hw hp, decide_eq_false hne, Bool.xor_false]
    simp only [flipAll, Bool.or_eq_true, List.exists_mem_cons_iff]
    rw [ih (flipPixel_wf hw p) hon hps]
    exact or_congr_right (exists_congr fun q => and_congr_right fun hq => by rw [hlater q hq])

/-! ### The points of a sprite -/

theorem mem_spriteColumns {b : Byte} {k : Nat} : k ∈ spriteColumns b 0 8 ↔ k < 8 ∧ b.getLsbD (7 - k) = true := by
  simp [spriteColumns_eq_filter, List.mem_range'_1]

theorem spriteColumns_nodup (b : Byte) (k n : Nat) : (spriteColumns b k n).Nodup := by
  rw [spriteColumns_eq_filter]
  exact List.Nodup.filter _ List.nodup_range'

/-- A point of a sprite is a column and a row whose bit is 1; past the last row every bit is 0. -/
theorem mem_spritePoints {r : Nat} {bs : List Byte} {p : Nat × Nat} :
    p ∈ spritePoints r bs ↔ p.1 < 8 ∧ r ≤ p.2 ∧ (bs.getD (p.2 - r) 0).getLsbD (7 - p.1) = true := by
  obtain ⟨k, m⟩ := p
  induction bs generalizing r with
  | nil => simp [spritePoints]
  | cons b bs ih =>
    simp only [spritePoints, List.mem_append, List.mem_map, Prod.mk.injEq, ih, mem_spriteColumns]
    rcases Nat.lt_trichotomy m r with hlt | rfl | hgt
    · simp [Nat.ne_of_gt hlt, Nat.not_le.2 hlt, Nat.not_le.2 (Nat.lt_succ_of_lt hlt)]
    · simp
    · obtain ⟨d, rfl⟩ : ∃ d, m = r + 1 + d := ⟨m - (r + 1), by omega⟩
      have hrow : r + 1 + d - r = d + 1 := by omega
      simp [hrow, show r ≠ r + 1 + d by omega, show r ≤ r + 1 + d by omega]

theorem spritePoints_nodup (r : Nat) (bs : List Byte) : (spritePoints r bs).Nodup := by
  induction bs generalizing r with
  | nil => exact List.nodup_nil
  | cons b bs ih =>
    refine List.Nodup.append ((spriteColumns_nodup b 0 8).map fun _ _ h => (Prod.mk.inj h).1) (ih (r + 1)) ?_
    intro p hrow hlater
    obtain ⟨k, -, rfl⟩ := List.mem_map.1 hrow
    obtain ⟨-, hge, -⟩ := mem_spritePoints.1 hlater
    exact absurd hge (Nat.not_succ_le_self r)

/-- The flips of the clipped draw at a pixel: the sprite bit over it (rule R176). -/
theorem flipsOdd_translated (x0 y0 : Nat) (bs : List Byte) (px py : Nat) :
    flipsOdd ((spritePoints 0 bs).map fun p => (x0 + p.1, y0 + p.2)) (px, py) =
      (decide (x0 ≤ px ∧ px < x0 + 8 ∧ y0 ≤ py ∧ py < y0 + bs.length) && (bs.getD (py - y0) 0).getLsbD (7 - (px - x0))) := by
  have hinj : Function.Injective fun p : Nat × Nat => (x0 + p.1, y0 + p.2) := fun p q h => by
    simpa [Prod.ext_iff] using h
  rw [flipsOdd_of_nodup ((spritePoints_nodup 0 bs).map hinj), Bool.eq_iff_iff]
  simp only [decide_eq_true_eq, Bool.and_eq_true, List.mem_map, mem_spritePoints, Prod.mk.injEq]
  constructor
  · rintro ⟨⟨k, r⟩, ⟨hk, -, hbit⟩, rfl, rfl⟩
    have hrow : r < bs.length := by
      by_contra hpast
      simp [List.getElem?_eq_none (Nat.not_lt.1 hpast)] at hbit
    exact ⟨⟨by omega, by omega, by omega, by omega⟩, by simpa using hbit⟩
  · rintro ⟨⟨hx, hx8, hy, -⟩, hbit⟩
    exact ⟨(px - x0, py - y0), ⟨by omega, Nat.zero_le _, hbit⟩, by omega, by omega⟩

/-! ### The pixels `Dxyn` visits, where the sprite fits the display -/

/-- The pixel under column `k` and row `r` of the sprite (rule R172 (a)). -/
def State.target (s : State) (x y : Reg) (k r : Nat) : Nat × Nat :=
  (((s.reg x).toNat + k) % s.config.width, ((s.reg y).toNat + r) % s.config.height)

theorem visited_eq_map_target (s : State) (x y : Reg) (n : Nat) :
    s.visited x y n = (spritePoints 0 (s.readBytes s.index.toNat n)).map fun p => s.target x y p.1 p.2 := by
  simp only [← wrappedTargets_eq_visited, wrappedTargets, State.target, Nat.mod_add_mod]

theorem mem_spritePoints_readBytes {s : State} {a n : Nat} {p : Nat × Nat} :
    p ∈ spritePoints 0 (s.readBytes a n) ↔
      p.2 < n ∧ p.1 < 8 ∧ (s.readMem (a + p.2)).getLsbD (7 - p.1) = true := by
  obtain ⟨k, r⟩ := p
  rw [spritePoints_readBytes]
  simp only [List.mem_flatMap, List.mem_range, List.mem_map, mem_spriteColumns, Prod.mk.injEq, Nat.zero_add]
  constructor
  · rintro ⟨j, hj, k, hk, rfl, rfl⟩
    exact ⟨hj, hk⟩
  · rintro ⟨hr, hk⟩
    exact ⟨r, hr, k, hk, rfl, rfl⟩

theorem mem_visited {s : State} {x y : Reg} {n : Nat} {q : Nat × Nat} :
    q ∈ s.visited x y n ↔ ∃ r k, r < n ∧ k < 8 ∧ (s.readMem (s.index.toNat + r)).getLsbD (7 - k) = true ∧
      q = s.target x y k r := by
  rw [visited_eq_map_target, List.mem_map]
  constructor
  · rintro ⟨p, hp, rfl⟩
    obtain ⟨hr, hk, hbit⟩ := mem_spritePoints_readBytes.1 hp
    exact ⟨p.2, p.1, hr, hk, hbit, rfl⟩
  · rintro ⟨r, k, hr, hk, hbit, rfl⟩
    exact ⟨(k, r), mem_spritePoints_readBytes.2 ⟨hr, hk, hbit⟩, rfl⟩

/-- Wrapped offsets smaller than the size do not meet. -/
theorem add_mod_inj {a m k k' : Nat} (hk : k < m) (hk' : k' < m) (h : (a + k) % m = (a + k') % m) : k = k' :=
  (Nat.ModEq.add_left_cancel' a h).eq_of_lt_of_lt hk hk'

section
variable {s : State} {x y : Reg} {n : Nat}

/-- On a display the sprite fits, two places of the sprite have two targets. -/
theorem State.target_inj (hW : 8 ≤ s.config.width) (hH : n ≤ s.config.height) {k k' r r' : Nat} (hk : k < 8)
    (hk' : k' < 8) (hr : r < n) (hr' : r' < n) (h : s.target x y k r = s.target x y k' r') : k = k' ∧ r = r' := by
  obtain ⟨hx, hy⟩ := Prod.mk.inj h
  exact ⟨add_mod_inj (hk.trans_le hW) (hk'.trans_le hW) hx, add_mod_inj (hr.trans_le hH) (hr'.trans_le hH) hy⟩

theorem visited_nodup (hW : 8 ≤ s.config.width) (hH : n ≤ s.config.height) : (s.visited x y n).Nodup := by
  rw [visited_eq_map_target]
  refine List.Nodup.map_on (fun p hp q hq h => ?_) (spritePoints_nodup _ _)
  obtain ⟨hr, hk, -⟩ := mem_spritePoints_readBytes.1 hp
  obtain ⟨hr', hk', -⟩ := mem_spritePoints_readBytes.1 hq
  obtain ⟨h₁, h₂⟩ := s.target_inj hW hH hk hk' hr hr' h
  exact Prod.ext h₁ h₂

/-- On a display the sprite fits, a target is visited exactly when its own bit is 1. -/
theorem target_mem_visited_iff (hW : 8 ≤ s.config.width) (hH : n ≤ s.config.height) {k r : Nat} (hk : k < 8)
    (hr : r < n) :
    s.target x y k r ∈ s.visited x y n ↔ (s.readMem (s.index.toNat + r)).getLsbD (7 - k) = true := by
  rw [mem_visited]
  constructor
  · rintro ⟨r', k', hr', hk', hbit, h⟩
    obtain ⟨rfl, rfl⟩ := s.target_inj hW hH hk hk' hr hr' h
    exact hbit
  · exact fun hbit => ⟨r, k, hr, hk, hbit, rfl⟩

end

/-- What a drawing writes moves no target of the next one, unless the origin is read from `VF` (rule R172 (h)). -/
theorem visited_setFlag_setFb (s : State) {x y : Reg} (hx : x ≠ VF) (hy : y ≠ VF) (n : Nat) (f : Bool)
    (buf : List Host.Cell) : ((s.setFlag f).setFb buf).visited x y n = s.visited x y n := by
  simp only [State.visited, State.setFb_reg, State.reg_setFlag, if_neg hx, if_neg hy, State.setFb_readMem,
    State.setFlag_readMem, State.setFb_index, State.setFlag_index, State.setFb_config, State.setFlag_config]

/-! ### The cleared buffer -/

/-- A cleared picture shows no pixel (rule R173). -/
@[simp] theorem getPixel_clearBuffer (c : Config) (px py : Nat) : getPixel c clearBuffer px py = false := by
  simp [getPixel]

end Sys2Proof.Machine
end

section
/-! The display, as `43_display.md` states it. -/

namespace Sys2Proof.Machine

/-- Settles O46: the buffer left is the cleared one, and nothing else is written. -/
theorem clearScreen : Obligations.ClearScreen :=
  ⟨decode_encode (i := .cls) rfl,
    fun s => ⟨_, rfl, getPixel_clearBuffer s.config, bufByte_clearBuffer, s.setFb_frame clearBuffer⟩⟩

/-- Settles O48: on a display the sprite fits, no pixel is visited twice, and a target is visited exactly when its
sprite bit is 1. -/
theorem drawXorsSprite : Obligations.DrawXorsSprite := by
  intro x y n s hs hW hH h
  obtain ⟨hc, -, hbuf, -⟩ := hs
  have hon := onDisplay_of_mem_visited hc (x := x) (y := y) (n := n.toNat)
  have hnodup := visited_nodup hW hH (x := x) (y := y)
  have hpixel (q : Nat × Nat) : getPixel s.config (flipAll s.config s.fb (s.visited x y n.toNat)).1 q.1 q.2 =
      (s.getPixel q.1 q.2 ^^ decide (q ∈ s.visited x y n.toNat)) := by
    rw [getPixel_flipAll hbuf hon, flipsOdd_of_nodup hnodup, State.getPixel]
  refine ⟨_, exec_drw_of_lt h, fun r k hr hk => ?_, fun px py hout => ?_, ?_, ?_⟩
  · exact (hpixel (s.target x y k r)).trans (congrArg (xor _) (by simp [target_mem_visited_iff hW hH hk hr]))
  · have hnot : (px, py) ∉ s.visited x y n.toNat := fun hmem => by
      obtain ⟨r, k, hr, hk, -, hq⟩ := mem_visited.1 hmem
      exact hout r k hr hk (Prod.mk.inj hq)
    exact (hpixel (px, py)).trans (by rw [decide_eq_false hnot, Bool.xor_false])
  · rw [State.setFb_reg, State.reg_setFlag_VF]
    exact flagByte_cases _
  · rw [State.setFb_reg, State.reg_setFlag_VF, flagByte_eq_one_iff, flipAll_collides_iff_of_nodup hbuf hon hnodup]
    constructor
    · rintro ⟨q, hq, hlit⟩
      obtain ⟨r, k, hr, hk, hbit, rfl⟩ := mem_visited.1 hq
      exact ⟨r, k, hr, hk, hbit, hlit⟩
    · rintro ⟨r, k, hr, hk, hbit, hlit⟩
      exact ⟨s.target x y k r, mem_visited.2 ⟨r, k, hr, hk, hbit, rfl⟩, hlit⟩

/-- Settles O49: the second drawing visits the pixels of the first, and the same flips twice undo each other. -/
theorem drawTwiceRestores : Obligations.DrawTwiceRestores := by
  intro x y n s hs hx hy h
  obtain ⟨-, -, hbuf, -⟩ := hs
  refine ⟨_, _, exec_drw_of_lt h, exec_drw_of_lt h, ?_⟩
  rw [visited_setFlag_setFb s hx hy]
  exact flipAll_flipAll hbuf _

/-- Settles O51: a flip is XOR, a flip off the display does nothing, and no point of the sprite is flipped twice. -/
theorem clippedDrawXorsAndInverts : Obligations.ClippedDrawXorsAndInverts := by
  intro c buf x0 y0 bytes hw
  refine ⟨fun px py => (getPixel_flipAll_clipped hw _ (px, py)).trans (congrArg _ ?_), flipAll_flipAll hw _⟩
  simp only [flipsOdd_translated, onDisplay, ← Bool.and_assoc, ← Bool.decide_and, and_assoc]

end Sys2Proof.Machine
end

section
/-! SUPPORT. What a key instruction finds in the sample the port delivers, and what a timer holds after any number of
TICKs (`44_keys_timers.md` rules R190 to R195; `60_exceptions.md` rules R224, R225). -/

namespace Sys2Proof.Machine

variable {s : State} {keys : BitVec 256} {q : Ports}

/-! ### The sample the port delivers -/

/-- The port delivers one sample at a time, and `sampleKeys` takes it (rule R231). -/
theorem State.sampleKeys_of_delivered (h : KeysDelivered s.ports keys q) :
    s.sampleKeys = (keys, { s with ports := q }) := by
  rcases h with ⟨rest, hsamples, rfl⟩ | ⟨hsamples, rfl, rfl⟩
  · exact s.sampleKeys_scripted keys rest hsamples
  · exact s.sampleKeys_free hsamples

theorem State.sampleKeys_delivered (s : State) : KeysDelivered s.ports s.sampleKeys.1 s.sampleKeys.2.ports := by
  cases hsamples : s.ports.keySamples with
  | nil =>
    rw [s.sampleKeys_free hsamples]
    exact .inr ⟨hsamples, rfl, rfl⟩
  | cons keys rest =>
    rw [s.sampleKeys_scripted keys rest hsamples]
    exact .inl ⟨rest, hsamples, rfl⟩

theorem KeysDelivered.frame (h : KeysDelivered s.ports keys q) :
    Frame { ports := true } s { s with ports := q } := by
  have hframe := s.sampleKeys_frame
  rwa [State.sampleKeys_of_delivered h] at hframe

/-! ### The keys that are down in a sample -/

/-- A number outside the keyspace is a key that is not down (decision D11). -/
theorem keyPressed_iff (c : Config) (b : Byte) :
    keyPressed c keys b = true ↔ b.toNat < c.keyspace ∧ keys.getLsbD b.toNat = true := by
  rw [keyPressed, Bool.and_eq_true, decide_eq_true_iff]

theorem anyPressed_of_none_down {c : Config} (h : ∀ j, j < c.keyspace → keys.getLsbD j = false) :
    anyPressed c keys = none := by
  rcases firstKey_cases keys 0 c.keyspace with ⟨hnone, -⟩ | ⟨k, -, -, hk, hdown, -⟩
  · rw [anyPressed, hnone, Option.map_none]
  · simp [h k (by omega)] at hdown

/-- The lowest key that is down is the one found (rule R232). -/
theorem anyPressed_of_lowest {c : Config} {k : Nat} (hk : k < c.keyspace) (hdown : keys.getLsbD k = true)
    (hlowest : ∀ j, j < k → keys.getLsbD j = false) : anyPressed c keys = some (BitVec.ofNat 8 k) := by
  rcases firstKey_cases keys 0 c.keyspace with ⟨-, hnone⟩ | ⟨m, hm, -, -, hmdown, hmlowest⟩
  · simp [hnone k (Nat.zero_le k) (by omega)] at hdown
  · have hmk : ¬ m < k := fun hlt => by simp [hlowest m hlt] at hmdown
    have hkm : ¬ k < m := fun hlt => by simp [hmlowest k (Nat.zero_le k) hlt] at hdown
    obtain rfl : m = k := by omega
    rw [anyPressed, hm, Option.map_some]

/-! ### The skip of a key instruction -/

theorem State.skipIf_ports (s : State) (cond : Bool) : (s.skipIf cond).ports = s.ports := by
  cases cond <;> rfl

/-- A skip on the opposite condition (rule R191). -/
theorem State.skipIf_not_pc (s : State) (cond : Bool) :
    (s.skipIf (!cond)).pc = if cond = true then s.pc else s.pc + 2 := by
  cases cond <;> rfl

/-! ### The key instructions, for the sample delivered -/

theorem exec_skp_of_delivered (h : KeysDelivered s.ports keys q) (x : Reg) :
    exec (.skp x) s = .next ({ s with ports := q }.skipIf (keyPressed s.config keys (s.reg x))) := by
  rw [exec, execSkp, State.sampleKeys_of_delivered h]

theorem exec_sknp_of_delivered (h : KeysDelivered s.ports keys q) (x : Reg) :
    exec (.sknp x) s = .next ({ s with ports := q }.skipIf (!keyPressed s.config keys (s.reg x))) := by
  rw [exec, execSknp, State.sampleKeys_of_delivered h]

theorem exec_ldVxK_of_none (h : KeysDelivered s.ports keys q) (hnone : anyPressed s.config keys = none) (x : Reg) :
    exec (.ldVxK x) s = .next ({ s with ports := q }.setPc (s.pc - 2)) := by
  simp only [exec, execLdVxK, State.sampleKeys_of_delivered h, hnone]

theorem exec_ldVxK_of_some (h : KeysDelivered s.ports keys q) {k : Byte} (hsome : anyPressed s.config keys = some k)
    (x : Reg) : exec (.ldVxK x) s = .next ({ s with ports := q }.setReg x k) := by
  simp only [exec, execLdVxK, State.sampleKeys_of_delivered h, hsome]

/-! ### The timers -/

theorem countDown_toNat (b : Byte) : (countDown b).toNat = b.toNat - 1 := by
  unfold countDown
  split <;> bv_omega

/-- A timer stops at 0 (rule R28). -/
theorem iterate_countDown_toNat (b : Byte) (j : Nat) : (countDown^[j] b).toNat = b.toNat - j := by
  have hpred : Function.Semiconj BitVec.toNat countDown Nat.pred := countDown_toNat
  rw [hpred.iterate_right j b, Nat.pred_iterate]

theorem iterate_tick_dt_toNat (s : State) (j : Nat) : (tick^[j] s).dt.toNat = s.dt.toNat - j := by
  have hdt : Function.Semiconj State.dt tick countDown := tick_dt
  rw [hdt.iterate_right j s, iterate_countDown_toNat]

theorem iterate_tick_st_toNat (s : State) (j : Nat) : (tick^[j] s).st.toNat = s.st.toNat - j := by
  have hst : Function.Semiconj State.st tick countDown := tick_st
  rw [hst.iterate_right j s, iterate_countDown_toNat]

/-- The last TICK sounds the tone by `ST` as it has just decremented it (rule R224). -/
theorem iterate_tick_tone_iff (s : State) {j : Nat} (hj : 0 < j) : (tick^[j] s).tone = true ↔ j < s.st.toNat := by
  obtain ⟨k, rfl⟩ := Nat.exists_eq_succ_of_ne_zero hj.ne'
  rw [Function.iterate_succ_apply', tick_tone, decide_eq_true_iff, countDown_toNat, iterate_tick_st_toNat]
  omega

end Sys2Proof.Machine
end

section
/-! The statements of `44_keys_timers.md`. -/

namespace Sys2Proof.Machine

/-- Settles O53: the scan of the sample finds its lowest key that is down, a number below 256, or no key at all. -/
theorem waitForKey : Obligations.WaitForKey := by
  refine ⟨fun x => decode_encode (i := .ldVxK x) rfl, fun x s keys q hq hnone => ?_,
    fun x s keys q k hq hk hdown hlowest => ?_⟩
  · refine ⟨_, exec_ldVxK_of_none hq (anyPressed_of_none_down hnone) x, rfl, rfl, ?_⟩
    exact (hq.frame.mono {}).trans ((State.setPc_frame _ _).mono {})
  · have hbyte : k < 256 := BitVec.lt_of_getLsbD hdown
    refine ⟨_, exec_ldVxK_of_some hq (anyPressed_of_lowest hk hdown hlowest) x, ?_, rfl, ?_⟩
    · rw [State.reg_setReg_same, BitVec.toNat_ofNat, Nat.mod_eq_of_lt hbyte]
    · exact (hq.frame.mono {}).trans ((State.setReg_frame _ _ _).mono {})

/-- Settles O54: each instruction moves one byte, and `j` TICKs take `j` off a timer, down to 0. -/
theorem timerInstructions : Obligations.TimerInstructions := by
  refine ⟨fun x => ⟨decode_encode (i := .ldVxDt x) rfl, decode_encode (i := .ldDtVx x) rfl,
      decode_encode (i := .ldStVx x) rfl⟩,
    fun x s => ⟨_, rfl, s.reg_setReg_same x s.dt, s.setReg_frame x s.dt⟩,
    fun x s => ⟨_, rfl, rfl, s.setDt_frame _⟩, fun x s => ⟨_, rfl, rfl, s.setSt_frame _⟩,
    fun x y s j => ⟨_, _, rfl, rfl, ?_⟩, fun x s j hj => ⟨_, rfl, rfl, iterate_tick_tone_iff _ hj⟩⟩
  rw [State.reg_setReg_same, iterate_tick_dt_toNat, State.setDt_dt]

/-- Settles O52: what the port delivers fixes the sample taken, and the two skips test one key of it. -/
theorem keySkips : Obligations.KeySkips := by
  refine ⟨fun x => ⟨decode_encode (i := .skp x) rfl, decode_encode (i := .sknp x) rfl⟩, State.sampleKeys_delivered,
    fun x s keys q hq => ?_, fun x s keys q hq => ?_⟩
  · have hexec := exec_skp_of_delivered hq x
    refine ⟨_, hexec, ?_, State.skipIf_ports _ _, execFrame _ _ _ hexec⟩
    simp only [State.skipIf_pc, State.skipPc, keyPressed_iff]
  · have hexec := exec_sknp_of_delivered hq x
    refine ⟨_, hexec, ?_, State.skipIf_ports _ _, execFrame _ _ _ hexec⟩
    simp only [State.skipIf_not_pc, keyPressed_iff]

end Sys2Proof.Machine
end

section
/-! SUPPORT. Which instructions fault, and when (`60_exceptions.md` rules R210, R215 to R217, R219), and what LOAD and
TICK leave unchanged (rules R224, R257). -/

namespace Sys2Proof.Machine

variable {s t : State} {i : Instr}

/-! ### The condition under which an instruction does not fault -/

/-- What an instruction itself asks of the state so as not to fault: room on the stack or an entry to pop, and a data
range inside memory. -/
def State.Admits (s : State) : Instr → Prop
  | .call _ => s.sp.val ≠ 16
  | .ret => s.sp.val ≠ 0
  | .storeBcd _ => s.index.toNat + 2 < 4096
  | .storeRegs x | .loadRegs x => s.index.toNat + x.toNat < 4096
  | .drw _ _ n => n = 0 ∨ s.index.toNat + n.toNat - 1 < 4096
  | _ => True

@[simp] theorem State.writeRegs_status (s : State) (k : Nat) (bs : List Byte) :
    (s.writeRegs k bs).status = s.status := by
  rw [State.writeRegs_eq]

theorem Frame.status_eq {m : Touched} (h : Frame m s t) (hm : m.status = false) : t.status = s.status := by
  obtain ⟨-, -, -, -, -, -, -, -, hstatus, -, -, -, -, -⟩ := h
  exact hstatus hm

/-- An instruction whose condition holds keeps `status`: the six that can fault run to their end, and no other one
writes `status`. -/
theorem status_of_exec_of_admits (hadmits : s.Admits i) (h : exec i s = .next t) : t.status = s.status := by
  cases i with
  | call nnn =>
    have hroom : s.sp.val < 16 := Nat.lt_of_le_of_ne (Nat.le_of_lt_succ s.sp.isLt) hadmits
    cases (exec_call_of_sp_eq nnn ⟨s.sp.val, hroom⟩ rfl).symm.trans h
    rfl
  | ret =>
    obtain ⟨j, hj⟩ := Nat.exists_eq_succ_of_ne_zero hadmits
    have htop : j < 16 := Nat.lt_of_succ_lt_succ (hj ▸ s.sp.isLt)
    cases (exec_ret_of_sp_eq ⟨j, htop⟩ hj).symm.trans h
    rfl
  | storeBcd =>
    cases (exec_storeBcd_of_lt hadmits).symm.trans h
    exact s.writeBytes_status _ _
  | storeRegs =>
    cases (exec_storeRegs_of_lt hadmits).symm.trans h
    exact s.writeBytes_status _ _
  | loadRegs =>
    cases (exec_loadRegs_of_lt hadmits).symm.trans h
    exact s.writeRegs_status _ _
  | drw =>
    cases (exec_drw_of_lt hadmits).symm.trans h
    rfl
  | _ => exact (execFrame _ s t h).status_eq rfl

/-- An instruction whose condition fails is one of the six that can fault, and does. -/
theorem exec_of_not_admits (hadmits : ¬ s.Admits i) : ∃ f, exec i s = .next (s.faultedWith f) := by
  cases i with
  | call nnn => exact ⟨_, exec_call_of_full nnn (not_not.1 hadmits)⟩
  | ret => exact ⟨_, exec_ret_of_empty (not_not.1 hadmits)⟩
  | storeBcd => exact ⟨_, exec_storeBcd_of_ge (Nat.not_lt.1 hadmits)⟩
  | storeRegs => exact ⟨_, exec_storeRegs_of_ge (Nat.not_lt.1 hadmits)⟩
  | loadRegs => exact ⟨_, exec_loadRegs_of_ge (Nat.not_lt.1 hadmits)⟩
  | drw _ _ n =>
    obtain ⟨hn, hpast⟩ := not_or.1 hadmits
    have hrows : 0 < n.toNat := Nat.pos_of_ne_zero fun hzero => hn (BitVec.eq_of_toNat_eq hzero)
    exact ⟨_, exec_drw_of_ge hrows (Nat.not_lt.1 hpast)⟩
  | _ => exact absurd trivial hadmits

theorem running_of_exec_iff (hr : s.status = .running) (h : exec i s = .next t) :
    t.status = .running ↔ s.Admits i := by
  refine ⟨fun hrunning => ?_, fun hadmits => (status_of_exec_of_admits hadmits h).trans hr⟩
  by_contra hadmits
  obtain ⟨f, hf⟩ := exec_of_not_admits hadmits
  cases hf.symm.trans h
  cases hrunning

/-- Past the end of memory the fetch faults; elsewhere the instruction's own condition decides, and the advance of `pc`
changes none of the pieces it reads (rules R55, R100, R210). -/
theorem running_of_stepCpu_iff (hr : s.status = .running) (h : stepCpu s = .next t) :
    t.status = .running ↔
      s.pc.toNat + 1 < 4096 ∧ s.Admits (decode (s.readMem s.pc.toNat ++ s.readMem (s.pc.toNat + 1))) := by
  by_cases hpc : s.pc.toNat + 1 < 4096
  · rw [stepCpu_of_pc_lt hr hpc] at h
    exact (running_of_exec_iff (s := { s with pc := s.pc + 2 }) hr h).trans (and_iff_right hpc).symm
  · rw [stepCpu_of_pc_ge hr (Nat.not_lt.1 hpc)] at h
    cases h
    exact iff_of_false nofun fun ⟨hfetch, _⟩ => hpc hfetch

/-! ### LOAD and TICK -/

/-- A LOAD never writes `status`, whether its image fits or not (rules R255, R257). -/
theorem performLoad_status (rom : List Byte) (s : State) : (performLoad rom s).status = s.status := by
  rcases load_cases rom s with ⟨-, hload⟩ | ⟨-, hload⟩
  · rw [performLoad_of_error hload]
  · rw [performLoad_of_ok hload, State.setPc_status, State.writeBytes_status]

theorem tick_frame (s : State) : Frame { dt := true, st := true, tone := true } s (tick s) := by simp [Frame]

theorem iterate_tick_frame (s : State) (j : Nat) : Frame { dt := true, st := true, tone := true } s (tick^[j] s) :=
  Function.Iterate.rec (Frame _ s) (Frame.refl _ s) (fun u h => h.trans (tick_frame u)) j

end Sys2Proof.Machine
end

section
/-! The statements of `60_exceptions.md`. -/

namespace Sys2Proof.Machine

/-- Settles O11: a STEP faults before its first write, or goes on with `status` kept. -/
theorem faultsArePrecise : Obligations.FaultsArePrecise := by
  intro s t hr hnext hstep hstopped
  rw [step_of_stepNext hnext] at hstep
  cases stepChange_of_stepCpu (s := s.setRequests s.ports.requests.tail) hr hstep with
  | faulted f h => exact ⟨f, h⟩
  | continued _ h => exact absurd (h.status.trans hr) hstopped

/-- Settles O12: a request taken off the list changes nothing a STEP's fault depends on. -/
theorem stepFaultsExactlyWhen : Obligations.StepFaultsExactlyWhen := by
  intro s t hr hnext hstep
  rw [step_of_stepNext hnext] at hstep
  exact running_of_stepCpu_iff (s := s.setRequests s.ports.requests.tail) hr hstep

/-- Settles O13, operation by operation. -/
theorem faultsAreSticky : Obligations.FaultsAreSticky := by
  intro s f a hs
  have hnone (h : s.ports.requests = []) : step s = .next s := (step_of_no_request h).trans (stepCpu_of_faulted hs)
  have hrequested (rest : List Op) (h : s.ports.requests = .step :: rest) : step s = .next (s.setRequests rest) :=
    (step_of_step_request h).trans (stepCpu_of_faulted hs)
  have hload (rom : List Byte) : (performLoad rom s).status = .faulted f a := (performLoad_status rom s).trans hs
  refine ⟨hnone, hrequested, hs, hload, rfl, fun t hnoReset hstep => ?_⟩
  cases hreq : s.ports.requests with
  | nil =>
    cases (hnone hreq).symm.trans hstep
    exact hs
  | cons op rest =>
    cases op with
    | step =>
      cases (hrequested rest hreq).symm.trans hstep
      exact hs
    | tick =>
      cases (step_of_tick_request hreq).symm.trans hstep
      exact hs
    | load rom =>
      cases (step_of_load_request hreq).symm.trans hstep
      exact (performLoad_status rom _).trans hs
    | reset => exact absurd hreq (hnoReset rest)

/-- Settles O56: the timers count down together, and the tone follows `ST` from the first TICK on. -/
theorem ticksReachZeroAndStay : Obligations.TicksReachZeroAndStay := fun s j =>
  ⟨iterate_tick_dt_toNat s j, iterate_tick_st_toNat s j, iterate_tick_tone_iff s, iterate_tick_frame s j⟩

/-- Settles O55: both timers count down, and the tone is set from `ST` as just decremented. -/
theorem tickCountsDown : Obligations.TickCountsDown := fun s =>
  ⟨countDown_toNat s.dt, countDown_toNat s.st, decide_eq_true_iff, tick_frame s⟩

end Sys2Proof.Machine
end

section
/-! SUPPORT. Runs of the machine, the jump to itself, the idle machine, and the frame of a LOAD that fits
(`70_reset_and_hazards.md` rules R251, R257, R264). -/

namespace Sys2Proof

/-! ### A jump decoded -/

/-- Major 1 is JP, whatever its address is (rule R85). -/
theorem decode_of_major_one {w : Word} (hm : (fieldMajor w).toNat = 1) : decode w = .jp (fieldNnn w) := by
  simp only [decode, hm]

theorem fieldNnn_toNat (w : Word) : (fieldNnn w).toNat = w.toNat % 4096 := by
  simp [fieldNnn]

end Sys2Proof

namespace Sys2Proof.Machine

variable {s t : State} {n : Nat}

/-- The word `1nnn` decodes to a jump to `nnn` (rule R103). -/
theorem decode_of_toNat_jump {w a : Word} (ha : a.toNat < 4096) (hw : w.toNat = 0x1000 + a.toNat) :
    ∃ nnn, decode w = .jp nnn ∧ zextAddr nnn = a := by
  refine ⟨fieldNnn w, decode_of_major_one ?_, BitVec.eq_of_toNat_eq ?_⟩
  · rw [fieldMajor_toNat]
    omega
  · rw [zextAddr_toNat, fieldNnn_toNat]
    omega

theorem State.atSelfJump_iff (s : State) :
    s.atSelfJump = true ↔ s.fetchable = true ∧ s.fetchWord.toNat = 0x1000 + s.pc.toNat := by
  simp [State.atSelfJump]

/-- The jump takes `pc` back to where the STEP began (rule R264). -/
theorem stepCpu_of_atSelfJump (hr : s.status = .running) (h : s.atSelfJump = true) : stepCpu s = .next s := by
  obtain ⟨hfetch, hword⟩ := s.atSelfJump_iff.1 h
  have hpc : s.pc.toNat < 4096 := Nat.lt_of_succ_lt (of_decide_eq_true hfetch)
  obtain ⟨nnn, hdecode, htarget⟩ := decode_of_toNat_jump hpc hword
  calc stepCpu s = exec (.jp nnn) (s.setPc (s.pc + 2)) := hdecode ▸ stepCpu_of_fetchable hr hfetch
    _ = .next (s.setPc (zextAddr nnn)) := rfl
    _ = .next s := by rw [htarget]; rfl

/-! ### Runs -/

theorem run_succ_of_step (h : step s = .next t) (n : Nat) :
    Host.Core.run core (n + 1) s = Host.Core.run core n t := by
  have hcore : core.step s = .next t := h
  simp only [Host.Core.run, hcore]

/-- A run is one step longer by a step at its end. -/
theorem run_succ_of_run (h : Host.Core.run core n s = .next t) : Host.Core.run core (n + 1) s = step t := by
  induction n generalizing s with
  | zero =>
    cases h
    obtain ⟨u, hu, -⟩ := step_storageChange t
    exact (run_succ_of_step hu 0).trans hu.symm
  | succ n ih =>
    obtain ⟨u, hu, -⟩ := step_storageChange s
    rw [run_succ_of_step hu] at h ⊢
    exact ih h

theorem run_of_step_self (h : step s = .next s) (n : Nat) : Host.Core.run core n s = .next s := by
  induction n with
  | zero => rfl
  | succ n ih => exact (run_succ_of_run ih).trans h

theorem running_run_zero_iff : (∃ t, Host.Core.run core 0 s = .next t ∧ State.Running t) ↔ s.Running := by
  refine ⟨?_, fun hr => ⟨s, rfl, hr⟩⟩
  rintro ⟨_, ⟨⟩, hr⟩
  exact hr

/-- A run is safe exactly when each of its beginnings ends in a running state (rules R30, R212). -/
theorem safeRun_iff : SafeRun n s ↔ ∀ m ≤ n, ∃ t, Host.Core.run core m s = .next t ∧ State.Running t := by
  induction n generalizing s with
  | zero =>
    simp only [Nat.le_zero, forall_eq]
    exact running_run_zero_iff.symm
  | succ n ih =>
    refine ⟨fun ⟨hr, u, hu, hsafe⟩ m hm => ?_, fun h => ⟨running_run_zero_iff.1 (h 0 (Nat.zero_le _)), ?_⟩⟩
    · cases m with
      | zero => exact running_run_zero_iff.2 hr
      | succ m =>
        rw [run_succ_of_step hu]
        exact ih.1 hsafe m (Nat.le_of_succ_le_succ hm)
    · obtain ⟨u, hu, -⟩ := step_storageChange s
      refine ⟨u, hu, ih.2 fun m hm => ?_⟩
      rw [← run_succ_of_step hu]
      exact h (m + 1) (Nat.succ_le_succ hm)

/-! ### The machine with no program -/

/-- The reset machine after `n` no-ops from 0x200 on. -/
def idle (n : Nat) : State := State.reset.setPc (BitVec.ofNat 16 (0x200 + 2 * n))

theorem idle_ready (n : Nat) : (idle n).Ready := ⟨rfl, rfl⟩

theorem idle_pc_toNat (hn : n ≤ 1792) : (idle n).pc.toNat = 0x200 + 2 * n :=
  BitVec.toNat_ofNat .. ▸ Nat.mod_eq_of_lt (by omega)

/-- Above the font table memory is zero (rule R44). -/
theorem idle_readMem {a : Nat} (ha : 0x50 ≤ a) : (idle n).readMem a = 0 :=
  (performReset_readMem State.reset a).trans (if_neg (Nat.not_lt.2 ha))

/-- The word 0x0000 is a no-op (rules R101, R251). -/
theorem step_idle (hn : n < 1792) : step (idle n) = .next (idle (n + 1)) := by
  have hpc := idle_pc_toNat hn.le
  have hdecode : decode ((idle n).readMem (idle n).pc.toNat ++ (idle n).readMem ((idle n).pc.toNat + 1)) = .sys 0 := by
    rw [idle_readMem (by omega), idle_readMem (by omega)]
    decide
  have hadvance : (idle n).pc + 2 = (idle (n + 1)).pc := (BitVec.ofNat_add (0x200 + 2 * n) 2).symm
  rw [(stepRunsDecodedInstruction (idle n) _ rfl (by omega) hdecode).1 rfl, hadvance]
  rfl

theorem run_reset_eq_idle (hn : n ≤ 1792) : Host.Core.run core n State.reset = .next (idle n) := by
  induction n with
  | zero => rfl
  | succ n ih => exact (run_succ_of_run (ih (Nat.le_of_succ_le hn))).trans (step_idle hn)

/-! ### LOAD -/

/-- A LOAD that fits changes the bytes of its image and `pc` and nothing else (rule R257). -/
theorem performLoad_frame {rom : List Byte} (h : rom.length ≤ maxRom) :
    Frame { pc := true, mem := fun a => decide (0x200 ≤ a) && decide (a < 0x200 + rom.length) } s
      (performLoad rom s) := by
  have hout := fun a => State.readMem_writeBytes_out s programBase.toNat a rom
  rw [performLoad_of_length_le h]
  rw [State.writeBytes_eq] at hout ⊢
  refine ⟨fun _ _ => rfl, fun _ => rfl, nofun, fun _ _ => rfl, fun _ => rfl, fun _ => rfl, fun _ => rfl,
    fun _ => rfl, fun _ => rfl, fun a ha => hout a ?_, fun _ _ => rfl, fun _ => rfl, rfl, rfl⟩
  rw [Bool.and_eq_false_iff, decide_eq_false_iff_not, decide_eq_false_iff_not] at ha
  exact ha.imp Nat.lt_of_not_le Nat.le_of_not_lt

end Sys2Proof.Machine
end

section
/-! The statements of `70_reset_and_hazards.md`. -/

namespace Sys2Proof.Machine

/-- Settles O57, by the two cases of a LOAD. -/
theorem loadPlacesImage : Obligations.LoadPlacesImage := by
  refine ⟨fun rom s hw hlen => ?_, fun rom s hlen => ?_⟩
  · rcases load_cases rom s with ⟨hlt, -⟩ | ⟨-, hload⟩
    · exact absurd hlen (Nat.not_le.2 hlt)
    · have hperform := performLoad_of_ok hload
      exact ⟨_, hload, hperform, rfl, hperform ▸ readMem_performLoad hw hlen, hperform ▸ performLoad_frame hlen⟩
  · rcases load_cases rom s with ⟨-, hload⟩ | ⟨hle, -⟩
    · exact ⟨hload, performLoad_of_error hload⟩
    · exact absurd hle (Nat.not_le.2 hlen)

/-- Settles O59: the jump is its own fixed point, and so is every run of it. -/
theorem selfJumpIsFixedPoint : Obligations.SelfJumpIsFixedPoint := by
  intro s ⟨hr, hnone⟩ hjump
  have hstep : step s = .next s := (step_of_no_request hnone).trans (stepCpu_of_atSelfJump hr hjump)
  exact ⟨hstep, run_of_step_self hstep⟩

/-- Settles O58: no-ops up to the end of memory, where nothing can be fetched. -/
theorem emptyMachineIdlesThenFaults : Obligations.EmptyMachineIdlesThenFaults := by
  have hfault : Host.Core.run core 1793 State.reset =
      .next { State.reset with pc := 0x1000, status := .faulted (.fetchOutOfBounds 0x1000) 0x1000 } :=
    (run_succ_of_run (run_reset_eq_idle le_rfl)).trans ((idle_ready 1792).step_of_pc_ge (by decide))
  have hsafe : SafeRun 1792 State.reset := safeRun_iff.2 fun m hm => ⟨idle m, run_reset_eq_idle hm, rfl⟩
  refine ⟨fun _ => run_reset_eq_idle, hfault, hsafe, fun hunsafe => ?_⟩
  obtain ⟨t, hrun, hrunning⟩ := safeRun_iff.1 hunsafe 1793 le_rfl
  cases hfault.symm.trans hrun
  cases hrunning

end Sys2Proof.Machine
end
